-- ==== Sys2Proof/Word.lean ====
section
/-! DEFINITION. The word of the machine: every register, memory cell and operand is one unsigned byte
(spec/10_state.md R21, spec/20_memory.md R40, R45). -/

namespace Sys2Proof

/-- A byte, an unsigned value 0..255. Bit 7 is the most significant (spec/00_scope.md R8). -/
abbrev Byte := BitVec 8

/-- `n & 0xFF`, the low byte of an exact natural number (spec/00_scope.md R8). -/
def lowByte (n : Nat) : Byte := BitVec.ofNat 8 n

end Sys2Proof
end

