-- ==== Sys2Proof/Config.lean ====
section
/-! DEFINITION. The parameters of the hardware (spec/00_scope.md R7). Every one is fixed by the spec;
none is left open, so this file holds no free value. -/

namespace Sys2Proof.Config

/-- MEM_SIZE: how many byte cells the memory has (R7, R40). -/
abbrev memSize : Nat := 256

/-- ADDR_MAX: the largest address (R7, R40). -/
abbrev addrMax : Nat := 255

/-- NREGS: how many general registers there are (R7, R21). -/
abbrev numRegs : Nat := 8

/-- SP_RESET: the reset value of the stack pointer, and the bound of the empty-stack test (R7, R30, R141). -/
abbrev spReset : Byte := 0xF4

/-- PC_RESET: the address of the first fetch (R7, R30, R212). -/
abbrev pcReset : Byte := 0x00

/-- What reset puts in every memory cell and every general register (R30, R210). -/
abbrev zeroByte : Byte := 0#8

end Sys2Proof.Config
end

