-- ==== Sys2Proof/Machine/State.lean ====
section
/-! DEFINITION. The architectural state, exactly the parts of spec/10_state.md R20, its reset value (R30), and
the reasons a step can stop. -/

namespace Sys2Proof.Machine

/-- The unified memory (spec/20_memory.md R40): the cells that do not hold 0, by rising address. A cell not
listed holds 0, which is what reset puts in every cell (R30); see `Memory.wf`. -/
structure Memory where
  cells : List Host.Cell
deriving DecidableEq, Repr

/-- Every listed address is at least `lo`, below 256, above the one before it, and holds no 0. -/
def cellsWf : Nat → List Host.Cell → Bool
  | _, [] => true
  | lo, (a, v) :: rest => decide (lo ≤ a) && decide (a < Config.memSize) && decide (v ≠ Config.zeroByte) && cellsWf (a + 1) rest

/-- The canonical form of a memory: equal memories are equal lists. -/
def Memory.wf (m : Memory) : Bool := cellsWf 0 m.cells

/-- The cause of a fault with its info (spec/60_exceptions.md R181). LOAD_ERROR is the host loader's outcome,
never the core's (R189), and is not among them. -/
inductive FaultCause where
  /-- ILLEGAL_OPCODE; info: the opcode byte (R182). -/
  | illegalOpcode (op : Byte)
  /-- STACK_UNDERFLOW; info: the value of sp (R183). -/
  | stackUnderflow (sp : Byte)
  /-- BOUNDS_OPERAND; info: the operand's address (R184). -/
  | boundsOperand (addr : Nat)
  /-- BOUNDS_STACK; info: the stack-pointer value out of range, which may be -1 (R185). -/
  | boundsStack (value : Int)
  /-- BOUNDS_NEXT_PC; info: the address (R186). -/
  | boundsNextPc (addr : Nat)
  /-- ILLEGAL_REGISTER; info: the operand byte (R187). -/
  | illegalRegister (v : Byte)
  /-- ALU_UNSUPPORTED, unreachable (R188); it keeps its code for completeness (spec/42_alu.md R121). -/
  | aluUnsupported
deriving DecidableEq, Repr

/-- The run status (spec/10_state.md R28). HALTED and FAULTED are terminal. -/
inductive RunStatus where
  | running
  | halted
  | faulted (cause : FaultCause)
deriving DecidableEq, Repr

/-- The state: exactly the parts R20 lists. Each of the eight registers, the pc and the sp is a byte; pc and
sp hold memory addresses (R21, R24, R25). -/
structure State where
  /-- ram[0..255] (R40). -/
  ram : Memory
  /-- x[0..7], registers R0 to R7 (R21). -/
  x : Vector Byte 8
  /-- The program counter (R24). -/
  pc : Byte
  /-- The stack pointer, a register of its own (R25). -/
  sp : Byte
  /-- The run status (R28). -/
  status : RunStatus
  /-- The output trace, oldest value first (R27). -/
  out : List Byte
deriving DecidableEq, Repr

/-- The machine right after reset, before the loader places an image (R30, spec/70_reset_and_hazards.md R210). -/
def State.reset : State where
  ram := ⟨[]⟩
  x := #v[0, 0, 0, 0, 0, 0, 0, 0]
  pc := Config.pcReset
  sp := Config.spReset
  status := .running
  out := []

/-- Why `step` answers no state. The faults of the SPEC are no reasons of this kind: the spec describes their whole
effect, a status, so they are next states (R180, R191; log entry 1). Only a machine whose status is terminal
has no step (spec/40_cycle.md R80; log entry 2). -/
inductive Fault where
  /-- Raised by `step` on a state whose status is HALTED: the machine has no step. Safe: nothing is claimed of a
  state after it. -/
  | halted
  /-- Raised by `step` on a state whose status is FAULTED(cause): the machine has no step. Safe: nothing is
  claimed of a state after it. -/
  | faulted (cause : FaultCause)
deriving DecidableEq, Repr

/-- Why the model gives no meaning. -/
inductive Refusal where
  /-- Raised by an arm of `exec` for an instruction that has no meaning yet; no arm does so today. Safe. -/
  | notModelled (mnemonic : String)
deriving DecidableEq, Repr

end Sys2Proof.Machine
end

