-- ==== Sys2Proof/Machine/Ops.lean ====
section
/-! DEFINITION. The operations the meanings share: memory and register access, the stack pointer's moves, the
program counter's advance, and taking a fault (spec/00_scope.md R9, R10; spec/20_memory.md; spec/40_cycle.md). -/

namespace Sys2Proof.Machine

/-- The byte the listed cells hold at an address; an unlisted address holds 0 (R30). -/
def cellsRead : List Host.Cell → Nat → Byte
  | [], _ => Config.zeroByte
  | (b, v) :: rest, a => if b = a then v else cellsRead rest a

/-- Put a byte at an address and keep the canonical form: writing 0 lists nothing. -/
def cellsWrite : List Host.Cell → Nat → Byte → List Host.Cell
  | [], a, v => if v = Config.zeroByte then [] else [(a, v)]
  | (b, w) :: rest, a, v =>
    if a < b then
      if v = Config.zeroByte then (b, w) :: rest else (a, v) :: (b, w) :: rest
    else if a = b then
      if v = Config.zeroByte then rest else (a, v) :: rest
    else (b, w) :: cellsWrite rest a v

/-- `ram[a]`, for an address of the memory. The bounds rule is in `memRead`. -/
def Memory.read (m : Memory) (a : Nat) : Byte := cellsRead m.cells a

/-- `ram[a] <- v`, for an address of the memory. The bounds rule is in `memWrite`. -/
def Memory.write (m : Memory) (a : Nat) (v : Byte) : Memory := ⟨cellsWrite m.cells a v⟩

/-- MemRead(addr, 1): the byte at `addr` when 0 ≤ addr ≤ 255; otherwise the read does not take place and the
cause of what made the access is raised. The address never wraps (spec/20_memory.md R41). -/
def memRead (s : State) (addr : Nat) (cause : FaultCause) : Except FaultCause Byte :=
  if addr ≤ Config.addrMax then .ok (s.ram.read addr) else .error cause

/-- MemWrite(addr, 1, v): the same address rule as for reads (R42). -/
def memWrite (s : State) (addr : Nat) (v : Byte) (cause : FaultCause) : Except FaultCause State :=
  if addr ≤ Config.addrMax then .ok { s with ram := s.ram.write addr v } else .error cause

/-- x[i] (spec/00_scope.md R9); all eight registers are read alike (spec/10_state.md R21). -/
def State.reg (s : State) (i : Fin Config.numRegs) : Byte := s.x[i.val]

/-- x[i] <- v; all eight registers are written alike, and none is hardwired (R21). -/
def State.setReg (s : State) (i : Fin Config.numRegs) (v : Byte) : State :=
  { s with x := s.x.set i.val v }

/-- pc <- target (R9). -/
def State.setPc (s : State) (target : Byte) : State := { s with pc := target }

/-- sp <- v. -/
def State.setSp (s : State) (v : Byte) : State := { s with sp := v }

/-- emit(v): append v to the output trace, which is delivering it to the output port (R9, R27;
spec/60_exceptions.md R196). -/
def State.emit (s : State) (v : Byte) : State := { s with out := s.out ++ [v] }

/-- status <- HALTED (spec/41_hlt_ldi_prn.md R100). -/
def State.halt (s : State) : State := { s with status := .halted }

/-- Taking a fault: `status <- FAULTED(cause, info)` is the only write; it saves nothing and moves nothing
(spec/60_exceptions.md R180, R191). There is no return from a fault to stand beside it (R193). -/
def takeFault (cause : FaultCause) (s : State) : State := { s with status := .faulted cause }

/-- The end of a handler: its staged writes take effect together, or, if it raised a cause, none of them does and
the fault is taken in the state the step began in (spec/00_scope.md R10, spec/40_cycle.md R90). -/
def commit (s : State) (staged : Except FaultCause State) : Host.Outcome State Fault Refusal :=
  match staged with
  | .ok t => .next t
  | .error cause => .next (takeFault cause s)

/-- AdvanceSequential(n): the successor address is computed without wrap; above 255 the effects stay, the pc
keeps the instruction's own address and the fault is recorded (spec/40_cycle.md R86). -/
def advanceSequential (n : Nat) (s : State) : State :=
  let next := s.pc.toNat + n + 1
  if Config.addrMax < next then takeFault (.boundsNextPc next) s else s.setPc (lowByte next)

/-- SpDec(): the stack pointer after a push (spec/43_stack.md R140). -/
def spDec (s : State) : Except FaultCause Byte :=
  if s.sp = 0 then .error (.boundsStack (-1)) else .ok (s.sp - 1)

/-- SpInc(): the stack pointer after a RET (R140). -/
def spInc (s : State) : Except FaultCause Byte :=
  if s.sp = 255 then .error (.boundsStack 256) else .ok (s.sp + 1)

/-- The stack is empty when sp ≥ SP_RESET (R141). -/
def stackEmpty (s : State) : Bool := decide (Config.spReset.toNat ≤ s.sp.toNat)

end Sys2Proof.Machine
end

