-- ==== Sys2Proof/Machine/Flags.lean ====
section
/-! DEFINITION. The ALU (spec/42_alu.md R120, R124). The hardware has no flag of any kind (spec/10_state.md R26): the ALU's
result is all an operation computes, so this file holds no flag. -/

namespace Sys2Proof.Machine

/-- The ALU's operation input has exactly two values, so ALU_UNSUPPORTED cannot arise (R121). -/
inductive AluOp where
  | add
  | mul
deriving DecidableEq, Repr

/-- The exact unsigned result, cut to its low byte; the excess bits are discarded and nothing records them
(R120, R124). -/
def aluResult (op : AluOp) (p q : Byte) : Byte :=
  match op with
  | .add => lowByte (p.toNat + q.toNat)
  | .mul => lowByte (p.toNat * q.toNat)

/-- apply(op, d, s): both operands are read before the write, and only x[d] is written (R120). -/
def aluApply (op : AluOp) (d r : Fin Config.numRegs) (s : State) : State :=
  s.setReg d (aluResult op (s.reg d) (s.reg r))

end Sys2Proof.Machine
end

