-- ==== Sys2Proof/Syntax.lean ====
section
/-! DEFINITION. The instructions: one constructor per row of spec/opcode_table.json, with the operands of
spec/30_encoding.md R62. A register operand keeps the whole operand byte: the machine decodes an
instruction whose operand byte selects no register, and its handler raises the cause (R63, R89). -/

namespace Sys2Proof

/-- A register operand (R63): a byte 0..7 selects a register; a byte 8..255 selects none, and the
instruction raises ILLEGAL_REGISTER(byte) when it uses the operand (spec/40_cycle.md R89). -/
inductive RegOperand where
  /-- The operand byte selects register Ri. -/
  | reg (i : Fin Config.numRegs)
  /-- The operand byte `v` is above 7 and selects no register. -/
  | illegal (v : Byte)
deriving DecidableEq, Repr

/-- The closed list of operation kinds the decode ROM selects from (R65). -/
inductive OpKind where
  | hlt | ldi | prn | mul | add | push | pop | call | ret | jmp
deriving DecidableEq, Repr

/-- The operand count the source's table gives each operation (R62, R66). -/
def OpKind.arity : OpKind → Nat
  | .hlt | .ret => 0
  | .prn | .push | .pop | .call | .jmp => 1
  | .ldi | .mul | .add => 2

/-- A decoded instruction. -/
inductive Instr where
  /-- HLT (spec/41_hlt_ldi_prn.md R100). -/
  | hlt
  /-- LDI Ra, b (R101). -/
  | ldi (a : RegOperand) (b : Byte)
  /-- PRN Ra (R102). -/
  | prn (a : RegOperand)
  /-- MUL Ra, Rb (spec/42_alu.md R122). -/
  | mul (a b : RegOperand)
  /-- ADD Ra, Rb (R123). -/
  | add (a b : RegOperand)
  /-- PUSH Ra (spec/43_stack.md R142). -/
  | push (a : RegOperand)
  /-- POP Ra (R143). -/
  | pop (a : RegOperand)
  /-- CALL Ra (spec/44_control.md R160). -/
  | call (a : RegOperand)
  /-- RET (R161). -/
  | ret
  /-- JMP Ra (R162). -/
  | jmp (a : RegOperand)
deriving DecidableEq, Repr

/-- The operation kind of an instruction. -/
def Instr.kind : Instr → OpKind
  | .hlt => .hlt
  | .ldi _ _ => .ldi
  | .prn _ => .prn
  | .mul _ _ => .mul
  | .add _ _ => .add
  | .push _ => .push
  | .pop _ => .pop
  | .call _ => .call
  | .ret => .ret
  | .jmp _ => .jmp

end Sys2Proof
end

