-- ==== Sys2Proof/WellFormed.lean ====
section
/-! DEFINITION. Which terms of Instr stand for words of the machine: an operand recorded as selecting no
register really is a byte above 7 (spec/30_encoding.md R63, "a byte 8..255 selects no register"). Every
instruction the decoder gives is well-formed, the ones whose handler raises ILLEGAL_REGISTER too. -/

namespace Sys2Proof

/-- An operand recorded as illegal holds a byte 8..255. -/
def RegOperand.wellFormed : RegOperand → Bool
  | .reg _ => true
  | .illegal v => decide (Config.numRegs ≤ v.toNat)

/-- Every register operand of the instruction is well-formed. -/
def Instr.wellFormed : Instr → Bool
  | .hlt => true
  | .ldi a _ => a.wellFormed
  | .prn a => a.wellFormed
  | .mul a b => a.wellFormed && b.wellFormed
  | .add a b => a.wellFormed && b.wellFormed
  | .push a => a.wellFormed
  | .pop a => a.wellFormed
  | .call a => a.wellFormed
  | .ret => true
  | .jmp a => a.wellFormed

/-- The same check as a proposition. -/
abbrev Instr.WellFormed (i : Instr) : Prop := i.wellFormed = true

end Sys2Proof
end

