-- ==== Sys2Proof/Decode.lean ====
section
/-! DEFINITION. The decoder, total on any bytes and rejecting by name, and the encoder
(spec/30_encoding.md; spec/40_cycle.md R82 to R84). -/

namespace Sys2Proof

/-- The opcode byte of each operation kind (R65). HLT, LDI and PRN are the source's own values; the other
seven are the spec's decision D1, from general knowledge (PRESUMED, log entry 3). -/
def opcodeOf : OpKind → Byte
  | .hlt => 0x01
  | .ldi => 0x82
  | .prn => 0x47
  | .mul => 0xA2
  | .add => 0xA0
  | .push => 0x45
  | .pop => 0x46
  | .call => 0x50
  | .ret => 0x11
  | .jmp => 0x54

/-- The decode ROM, in the order of R65's table. -/
def decodeRom : List (Byte × OpKind) :=
  [(0x01, .hlt), (0x82, .ldi), (0x47, .prn), (0xA2, .mul), (0xA0, .add),
   (0x45, .push), (0x46, .pop), (0x50, .call), (0x11, .ret), (0x54, .jmp)]

/-- The whole opcode byte is looked up in the ROM; no field of it selects anything (R67). -/
def lookupOpcode (op : Byte) : Option OpKind :=
  (decodeRom.find? (fun row => row.1 == op)).map (·.2)

/-- `n = op >> 6`, the operand count (R60, R82). -/
def operandCount (op : Byte) : Nat := (op >>> 6).toNat

/-- How many operand bytes a step fetches: none for an unrecognised opcode, whatever its top bits say (R83). -/
def operandsWanted (op : Byte) : Nat :=
  match lookupOpcode op with
  | none => 0
  | some _ => operandCount op

/-- A register operand byte, unmasked: 0..7 select a register (R63). -/
def RegOperand.ofByte (v : Byte) : RegOperand :=
  if h : v.toNat < Config.numRegs then .reg ⟨v.toNat, h⟩ else .illegal v

/-- The operand byte of a register operand. -/
def RegOperand.toByte : RegOperand → Byte
  | .reg i => lowByte i.val
  | .illegal v => v

/-- What the decoder answers. -/
inductive Decoded where
  /-- An instruction, and the bytes after it. -/
  | ok (i : Instr) (rest : List Byte)
  /-- The opcode byte is none of the ten (R68). -/
  | illegalOpcode (op : Byte)
  /-- The opcode is recognised and the bytes end before operand `k` (1 for a, 2 for b). -/
  | missingOperand (k : Nat)
  /-- There is not even an opcode byte. -/
  | noBytes
deriving DecidableEq, Repr

/-- Formats F0 (R62). -/
def decodeF0 (i : Instr) (rest : List Byte) : Decoded := .ok i rest

/-- Format F1R: one register operand (R62). -/
def decodeF1R (f : RegOperand → Instr) : List Byte → Decoded
  | [] => .missingOperand 1
  | a :: rest => .ok (f (.ofByte a)) rest

/-- Format F2RI: a register operand, then an immediate byte, unchanged (R62, R64). -/
def decodeF2RI (f : RegOperand → Byte → Instr) : List Byte → Decoded
  | [] => .missingOperand 1
  | [_] => .missingOperand 2
  | a :: b :: rest => .ok (f (.ofByte a) b) rest

/-- Format F2RR: two register operands (R62). -/
def decodeF2RR (f : RegOperand → RegOperand → Instr) : List Byte → Decoded
  | [] => .missingOperand 1
  | [_] => .missingOperand 2
  | a :: b :: rest => .ok (f (.ofByte a) (.ofByte b)) rest

/-- The format each operation kind reads its operands in (R62, R65). -/
def decodeOperands (k : OpKind) (bytes : List Byte) : Decoded :=
  match k with
  | .hlt => decodeF0 .hlt bytes
  | .ldi => decodeF2RI .ldi bytes
  | .prn => decodeF1R .prn bytes
  | .mul => decodeF2RR .mul bytes
  | .add => decodeF2RR .add bytes
  | .push => decodeF1R .push bytes
  | .pop => decodeF1R .pop bytes
  | .call => decodeF1R .call bytes
  | .ret => decodeF0 .ret bytes
  | .jmp => decodeF1R .jmp bytes

/-- Decode an opcode byte and the bytes after it: recognition first, then the operands (R83, R84). -/
def decodeOp (op : Byte) (bytes : List Byte) : Decoded :=
  match lookupOpcode op with
  | none => .illegalOpcode op
  | some k => decodeOperands k bytes

/-- Decode the instruction a list of bytes begins with. -/
def decode : List Byte → Decoded
  | [] => .noBytes
  | op :: bytes => decodeOp op bytes

/-- The words of an instruction: opcode, then a, then b (R62, R70). -/
def encode : Instr → List Byte
  | .hlt => [opcodeOf .hlt]
  | .ldi a b => [opcodeOf .ldi, a.toByte, b]
  | .prn a => [opcodeOf .prn, a.toByte]
  | .mul a b => [opcodeOf .mul, a.toByte, b.toByte]
  | .add a b => [opcodeOf .add, a.toByte, b.toByte]
  | .push a => [opcodeOf .push, a.toByte]
  | .pop a => [opcodeOf .pop, a.toByte]
  | .call a => [opcodeOf .call, a.toByte]
  | .ret => [opcodeOf .ret]
  | .jmp a => [opcodeOf .jmp, a.toByte]

/-- The longest instruction has three bytes (R60, R69). -/
def maxInstrBytes : Nat := 3

/-- The first `n` bytes of a number, the byte of bits 7..0 first. -/
def bytesOfNat : Nat → Nat → List Byte
  | 0, _ => []
  | n + 1, w => lowByte w :: bytesOfNat n (w / 256)

/-- The bytes of a word of `nbits` bits as spec/opcode_table.json numbers them: byte 0 is bits 7..0, byte 1
bits 15..8, byte 2 bits 23..16; bits above `nbits` are 0, up to the longest instruction (log entry 9). -/
def tableWordBytes (nbits w : Nat) : List Byte := bytesOfNat maxInstrBytes (w % 2 ^ nbits)

/-- The instruction the decoder reads from a table word, if it accepts one. -/
def decodeTableWord (nbits w : Nat) : Option Instr :=
  match decode (tableWordBytes nbits w) with
  | .ok i _ => some i
  | .illegalOpcode _ => none
  | .missingOperand _ => none
  | .noBytes => none

end Sys2Proof
end

