-- ==== Sys2Proof/Machine/Operands.lean ====
section
/-! DEFINITION. The operand forms a handler uses (spec/30_encoding.md R63, R64; spec/40_cycle.md R89). The immediate of
LDI is the operand byte itself and needs no operation (R64). -/

namespace Sys2Proof.Machine

/-- RegIdx(v): the register an operand byte selects, or ILLEGAL_REGISTER(v) for a byte above 7 (R89). -/
def regIdx : RegOperand → Except FaultCause (Fin Config.numRegs)
  | .reg i => .ok i
  | .illegal v => .error (.illegalRegister v)

/-- The operand bytes a step fetches: `n` bytes at increasing addresses from `addr`, up to the first address outside
the memory (spec/20_memory.md R45, spec/40_cycle.md R84). -/
def fetchOperands (s : State) : Nat → Nat → List Byte
  | 0, _ => []
  | n + 1, addr =>
    match memRead s addr (.boundsOperand addr) with
    | .ok v => v :: fetchOperands s n (addr + 1)
    | .error _ => []

/-- Fetch and decode: the opcode byte at pc, whose read never faults (R81); recognition before any operand fetch
(R83); then the operands at pc+1 and pc+2, where the first address above 255 raises BOUNDS_OPERAND (R84). -/
def fetchDecode (s : State) : Except FaultCause Instr :=
  let op := s.ram.read s.pc.toNat
  match decodeOp op (fetchOperands s (operandsWanted op) (s.pc.toNat + 1)) with
  | .ok i _ => .ok i
  | .illegalOpcode bad => .error (.illegalOpcode bad)
  | .missingOperand k => .error (.boundsOperand (s.pc.toNat + k))
  | .noBytes => .error (.illegalOpcode op)

/-- Put bytes at increasing addresses, up to the end of the memory. -/
def placeBytes (m : Memory) : Nat → List Byte → Memory
  | _, [] => m
  | addr, v :: rest =>
    if addr ≤ Config.addrMax then placeBytes (m.write addr v) (addr + 1) rest else m

end Sys2Proof.Machine
end

