-- ==== Sys2Proof/Machine/Alu.lean ====
section
/-! DEFINITION. MUL and ADD (spec/42_alu.md). -/

namespace Sys2Proof.Machine

/-- MUL Ra, Rb (R122): operand a is checked before operand b. -/
def execMul (a b : RegOperand) (s : State) : Host.Outcome State Fault Refusal :=
  commit s do
    let d ← regIdx a
    let r ← regIdx b
    .ok (advanceSequential 2 (aluApply .mul d r s))

/-- ADD Ra, Rb (R123): operand a is checked before operand b. -/
def execAdd (a b : RegOperand) (s : State) : Host.Outcome State Fault Refusal :=
  commit s do
    let d ← regIdx a
    let r ← regIdx b
    .ok (advanceSequential 2 (aluApply .add d r s))

end Sys2Proof.Machine
end

