-- ==== Sys2Proof/Machine/Basic.lean ====
section
/-! DEFINITION. HLT, LDI and PRN (spec/41_hlt_ldi_prn.md). -/

namespace Sys2Proof.Machine

/-- HLT (R100): status <- HALTED; the pc is not changed. -/
def execHlt (s : State) : Host.Outcome State Fault Refusal :=
  commit s (.ok s.halt)

/-- LDI Ra, b (R101): x[a] <- b, stored unchanged. -/
def execLdi (a : RegOperand) (b : Byte) (s : State) : Host.Outcome State Fault Refusal :=
  commit s do
    let d ← regIdx a
    .ok (advanceSequential 2 (s.setReg d b))

/-- PRN Ra (R102): emit(x[a]). -/
def execPrn (a : RegOperand) (s : State) : Host.Outcome State Fault Refusal :=
  commit s do
    let r ← regIdx a
    .ok (advanceSequential 1 (s.emit (s.reg r)))

end Sys2Proof.Machine
end

