-- ==== Sys2Proof/Machine/Control.lean ====
section
/-! DEFINITION. CALL, RET and JMP (spec/44_control.md). They set the pc directly (spec/40_cycle.md R87). -/

namespace Sys2Proof.Machine

/-- CALL Ra (R160): the stack bound, then the return address, then the register are checked; the return address
pc + 2 is stored at the new top of the stack and the pc becomes x[a]. -/
def execCall (a : RegOperand) (s : State) : Host.Outcome State Fault Refusal :=
  commit s do
    let t ← spDec s
    let ret := s.pc.toNat + 2
    if Config.addrMax < ret then .error (.boundsNextPc ret) else
    let r ← regIdx a
    let u ← memWrite (s.setSp t) t.toNat (lowByte ret) (.boundsStack t.toNat)
    .ok (u.setPc (s.reg r))

/-- RET (R161): the pc becomes the byte on top of the stack, whatever pushed it, and sp moves up. There is no
empty-stack test. -/
def execRet (s : State) : Host.Outcome State Fault Refusal :=
  commit s do
    let t ← memRead s s.sp.toNat (.boundsStack s.sp.toNat)
    let u ← spInc s
    .ok ((s.setPc t).setSp u)

/-- JMP Ra (R162): the pc becomes x[a]. -/
def execJmp (a : RegOperand) (s : State) : Host.Outcome State Fault Refusal :=
  commit s do
    let r ← regIdx a
    .ok (s.setPc (s.reg r))

end Sys2Proof.Machine
end

