-- ==== Sys2Proof/Machine/Stack.lean ====
section
/-! DEFINITION. PUSH and POP (spec/43_stack.md). -/

namespace Sys2Proof.Machine

/-- PUSH Ra (R142): the stack bound is checked before the register; sp moves down, then x[a] is stored there. -/
def execPush (a : RegOperand) (s : State) : Host.Outcome State Fault Refusal :=
  commit s do
    let t ← spDec s
    let r ← regIdx a
    let u ← memWrite (s.setSp t) t.toNat (s.reg r) (.boundsStack t.toNat)
    .ok (advanceSequential 1 u)

/-- POP Ra (R143): the empty-stack test comes first; x[a] is read from the top of the stack, then sp moves up. The
popped byte stays in memory. Past the test sp ≤ 0xF3, so sp + 1 stays in range. -/
def execPop (a : RegOperand) (s : State) : Host.Outcome State Fault Refusal :=
  commit s do
    if stackEmpty s then .error (.stackUnderflow s.sp) else
    let d ← regIdx a
    let v ← memRead s s.sp.toNat (.boundsStack s.sp.toNat)
    .ok (advanceSequential 1 ((s.setReg d v).setSp (s.sp + 1)))

end Sys2Proof.Machine
end

