-- ==== Sys2Proof/Machine/Step.lean ====
section
/-! DEFINITION. One step (spec/40_cycle.md R80, R85). -/

namespace Sys2Proof.Machine

/-- Step(): taken exactly when the status is RUNNING (R80). The cause a fetch raises is taken as a fault, with no other
change (R83, R84, R90); a decoded instruction is executed. -/
def step (s : State) : Host.Outcome State Fault Refusal :=
  match s.status with
  | .running =>
    match fetchDecode s with
    | .ok i => exec i s
    | .error cause => commit s (.error cause)
  | .halted => .fault .halted
  | .faulted cause => .fault (.faulted cause)

/-- The state with a table word's bytes placed at the pc, where the next step fetches, as the host's loader places an
image (spec/70_reset_and_hazards.md R211); the status is RUNNING, without which there is no step (log entry 8). -/
def State.withFetchWord (s : State) (nbits w : Nat) : State :=
  { s with ram := placeBytes s.ram s.pc.toNat (tableWordBytes nbits w), status := .running }

end Sys2Proof.Machine
end

