-- ==== Sys2Proof/Machine/Loader.lean ====
section
/-! DEFINITION. The host's side of the core (spec/60_exceptions.md R181, R196, R200; spec/70_reset_and_hazards.md R211;
spec/40_cycle.md R92): placing an image, reading the end of a run, rendering the output. -/

namespace Sys2Proof.Machine

/-- The image conditions: at most 256 values, each 0..255 (R211). -/
def imageOk (image : List Nat) : Bool :=
  decide (image.length ≤ Config.memSize) && image.all (fun v => decide (v < 256))

/-- Reset, then the image placed from address 0; an image that breaks a condition is refused and no run starts
(R210, R211). -/
def loadImage (image : List Nat) : Option State :=
  if imageOk image then
    some { State.reset with ram := placeBytes State.reset.ram 0 (image.map lowByte) }
  else none

/-- The status codes of the causes (R181). The values 4 to 8 are labels (spec/92_eei_decisions.md D10). -/
def FaultCause.code : FaultCause → Nat
  | .illegalOpcode _ => 1
  | .stackUnderflow _ => 3
  | .boundsOperand _ => 4
  | .boundsStack _ => 5
  | .boundsNextPc _ => 6
  | .illegalRegister _ => 7
  | .aluUnsupported => 8

/-- The code of LOAD_ERROR, which the host reports and the core never raises (R189). -/
def loadErrorCode : Nat := 2

/-- The default exit code of a terminal status; a running machine has none (R181, R200). -/
def RunStatus.code : RunStatus → Option Nat
  | .running => none
  | .halted => some 0
  | .faulted cause => some cause.code

/-- One emitted value as the host writes it: its decimal digits, no leading zeros (R196). -/
def renderByte (v : Byte) : List Char := Nat.toDigits 10 v.toNat

/-- The lines the host writes, one per value. The bytes that end a line are not specified
(spec/91_not_in_source.md N18). -/
def renderOut (s : State) : List (List Char) := s.out.map renderByte

/-- What is observable at the end of a run (spec/40_cycle.md R92). -/
structure Observed where
  status : RunStatus
  out : List Byte
  ram : Memory
  x : Vector Byte 8
  pc : Byte
  sp : Byte
deriving DecidableEq, Repr

/-- The result of a run that has ended; a run that has not ended has none (R92). -/
def observe (s : State) : Option Observed :=
  match s.status with
  | .running => none
  | .halted => some { status := s.status, out := s.out, ram := s.ram, x := s.x, pc := s.pc, sp := s.sp }
  | .faulted _ => some { status := s.status, out := s.out, ram := s.ram, x := s.x, pc := s.pc, sp := s.sp }

end Sys2Proof.Machine
end

