-- ==== Sys2Proof/Safety.lean ====
section
/-! DEFINITION. The terms statements are made in: the invariant of a state, what a recorded fault can be, and the
spec's list of checks in its own order (spec/60_exceptions.md R181, R190). -/

namespace Sys2Proof.Machine

/-- The infos R181 lists for each cause. ALU_UNSUPPORTED is recorded by nothing (R188). -/
def FaultCause.infoLegal : FaultCause → Bool
  | .illegalOpcode op => (lookupOpcode op).isNone
  | .stackUnderflow v => decide (0xF4 ≤ v.toNat)
  | .boundsOperand addr => decide (addr = 256)
  | .boundsStack value => decide (value = -1 ∨ value = 256)
  | .boundsNextPc addr => decide (addr = 256)
  | .illegalRegister v => decide (8 ≤ v.toNat)
  | .aluUnsupported => false

/-- A status the machine can have: RUNNING, HALTED, or FAULTED with a cause and info of R181. -/
def RunStatus.legal : RunStatus → Bool
  | .running => true
  | .halted => true
  | .faulted cause => cause.infoLegal

/-- The invariant of every run: the memory is in canonical form and the status is one of R181. That registers, pc, sp,
memory bytes and output values lie in 0..255 (R23, R24, R25, R43) needs no clause: their type says it. -/
def State.Inv (s : State) : Prop := s.ram.wf = true ∧ s.status.legal = true

/-- The instructions that end with AdvanceSequential, by their opcode bytes (spec/40_cycle.md R85, R86):
LDI, PRN, MUL, ADD, PUSH, POP. -/
def isSequential (op : Byte) : Bool := [0x82, 0x47, 0xA2, 0xA0, 0x45, 0x46].contains op

/-- The byte a step sees at an offset from the pc; used below only where an earlier check has put it in the memory. -/
def State.byteAtPc (s : State) (offset : Nat) : Byte := s.ram.read (s.pc.toNat + offset)

/-- One check of R190: whether it fails, and the cause it then reports. -/
abbrev Check := Bool × FaultCause

/-- RegIdx of an operand byte, as a check (R89). -/
def checkReg (v : Byte) : Check := (decide (7 < v.toNat), .illegalRegister v)

/-- SpDec, as a check (R140). -/
def checkSpDec (s : State) : Check := (decide (s.sp.toNat = 0), .boundsStack (-1))

/-- The handler's own checks in the order of its pseudocode lines (R190, point 3), by opcode byte. -/
def handlerChecks (s : State) : List Check :=
  let op := s.byteAtPc 0
  let a := s.byteAtPc 1
  let b := s.byteAtPc 2
  if op = 0x82 then [checkReg a]
  else if op = 0x47 then [checkReg a]
  else if op = 0xA2 then [checkReg a, checkReg b]
  else if op = 0xA0 then [checkReg a, checkReg b]
  else if op = 0x45 then [checkSpDec s, checkReg a]
  else if op = 0x46 then [(decide (0xF4 ≤ s.sp.toNat), .stackUnderflow s.sp), checkReg a]
  else if op = 0x50 then [checkSpDec s, (decide (255 < s.pc.toNat + 2), .boundsNextPc (s.pc.toNat + 2)), checkReg a]
  else if op = 0x11 then [(decide (s.sp.toNat = 255), .boundsStack 256)]
  else if op = 0x54 then [checkReg a]
  else []

/-- All the checks of one step in R190's order: ILLEGAL_OPCODE, BOUNDS_OPERAND for a and for b, the handler's own, and
BOUNDS_NEXT_PC of a sequential instruction. -/
def stepChecks (s : State) : List Check :=
  let op := s.byteAtPc 0
  let n := operandCount op
  let pc := s.pc.toNat
  [((lookupOpcode op).isNone, .illegalOpcode op),
   (decide (1 ≤ n ∧ 255 < pc + 1), .boundsOperand (pc + 1)),
   (decide (2 ≤ n ∧ 255 < pc + 2), .boundsOperand (pc + 2))]
  ++ handlerChecks s
  ++ [(isSequential op && decide (255 < pc + n + 1), .boundsNextPc (pc + n + 1))]

/-- The first check that fails is the cause reported (R190); none, if every check passes. -/
def firstFault (s : State) : Option FaultCause :=
  (stepChecks s).findSome? (fun c => if c.1 then some c.2 else none)

/-- All the bytes from an address to the end of the memory, at increasing addresses. -/
def bytesFrom (m : Memory) (addr : Nat) : List Byte :=
  (List.range' addr (Config.memSize - addr)).map m.read

end Sys2Proof.Machine
end

