-- ==== Sys2Proof/Certificates/Slice0/Obligations.lean ====
section
/-! DEFINITION. The statements for the provers, from the numbered rules of spec/. A fault of the spec is a next state
whose status records it (log entry 1); `{ s with status := … }` therefore says that nothing else changed. -/

open Sys2Proof Sys2Proof.Machine

/-! ## Reset, the invariant, the image -/

/-- R210: what reset puts in every piece of state. -/
def Obligations.ResetGivesEveryPartItsValue : Prop :=
  (∀ addr : Nat, addr ≤ 255 → State.reset.ram.read addr = 0) ∧
  (∀ r : Fin 8, State.reset.reg r = 0) ∧
  State.reset.sp = 0xF4 ∧ State.reset.pc = 0x00 ∧ State.reset.status = .running ∧ State.reset.out = []

/-- R211: which images are refused, and what an accepted one leaves; an empty image faults at its first step. -/
def Obligations.LoaderPlacesTheImageFromAddressZero : Prop :=
  ∀ image : List Nat,
    (loadImage image = none ↔ 256 < image.length ∨ ∃ v ∈ image, 255 < v) ∧
    ∀ s : State, loadImage image = some s →
      (∀ (i : Nat) (h : i < image.length), (s.ram.read i).toNat = image[i]) ∧
      (∀ i : Nat, image.length ≤ i → s.ram.read i = 0) ∧
      s = { State.reset with ram := s.ram } ∧
      (image = [] → step s = .next { s with status := .faulted (.illegalOpcode 0x00) })

/-- The invariant (canonical memory, a status of R181) holds at reset. -/
def Obligations.InvariantHoldsAtReset : Prop := State.reset.Inv

/-- Every step keeps the invariant, from every state that has it. -/
def Obligations.StepKeepsTheInvariant : Prop :=
  ∀ s t : State, s.Inv → step s = .next t → t.Inv

/-! ## Encoding -/

/-- Decoding the words of a well-formed instruction gives it back, with the bytes after it untouched. -/
def Obligations.DecodeOfEncodeIsTheInstruction : Prop :=
  ∀ (i : Instr) (rest : List Byte), i.WellFormed → decode (encode i ++ rest) = .ok i rest

/-- Bytes that decode are the words of the instruction they decode to, which is well-formed: no two instructions
share words. -/
def Obligations.DecodedBytesAreTheEncodedWords : Prop :=
  ∀ (bytes rest : List Byte) (i : Instr), decode bytes = .ok i rest → i.WellFormed ∧ bytes = encode i ++ rest

/-- Words written out from R65's table and the worked examples decode to the instructions they stand for. -/
def Obligations.WrittenWordsDecodeAsTheTableSays : Prop :=
  decode [0b00000001] = .ok .hlt [] ∧
  decode [0b10000010, 0b00000000, 0b00001000] = .ok (.ldi (.reg 0) 8) [] ∧
  decode [0b01000111, 0b00000000] = .ok (.prn (.reg 0)) [] ∧
  decode [0b10100010, 0b00000000, 0b00000001] = .ok (.mul (.reg 0) (.reg 1)) [] ∧
  decode [0b10100000, 0b00000101, 0b00000100] = .ok (.add (.reg 5) (.reg 4)) [] ∧
  decode [0b01000101, 0b00000010] = .ok (.push (.reg 2)) [] ∧
  decode [0b01000110, 0b00000011] = .ok (.pop (.reg 3)) [] ∧
  decode [0b01010000, 0b00000001] = .ok (.call (.reg 1)) [] ∧
  decode [0b00010001] = .ok .ret [] ∧
  decode [0b01010100, 0b00001000] = .ok (.jmp (.illegal 8)) []

/-- R68: the ten opcode bytes of R65 are recognised and the 246 others are illegal, 0x00 and 0xC0..0xFF among them;
executing an illegal one raises ILLEGAL_OPCODE with the byte, whatever follows it. -/
def Obligations.EveryOtherOpcodeByteIsIllegal : Prop :=
  (∀ op : Byte, lookupOpcode op = none ↔
    op ∉ [0x01, 0x82, 0x47, 0xA2, 0xA0, 0x45, 0x46, 0x50, 0x11, 0x54]) ∧
  ((List.range 256).filter (fun n => (lookupOpcode (lowByte n)).isNone)).length = 246 ∧
  lookupOpcode 0x00 = none ∧
  (∀ op : Byte, 0xC0 ≤ op.toNat → lookupOpcode op = none) ∧
  (∀ (op : Byte) (bytes : List Byte), lookupOpcode op = none → decode (op :: bytes) = .illegalOpcode op) ∧
  (∀ s : State, s.status = .running → lookupOpcode (s.byteAtPc 0) = none →
    step s = .next { s with status := .faulted (.illegalOpcode (s.byteAtPc 0)) })

/-- R66: the top two bits of a recognised opcode give the operand count of its instruction. -/
def Obligations.TopBitsGiveTheOperandCount : Prop :=
  (∀ (op : Byte) (k : OpKind), lookupOpcode op = some k → operandCount op = k.arity ∧ op.toNat / 64 = k.arity) ∧
  (∀ op : Byte, 0xC0 ≤ op.toNat → lookupOpcode op = none) ∧
  OpKind.hlt.arity = 0 ∧ OpKind.ret.arity = 0 ∧ OpKind.prn.arity = 1 ∧ OpKind.push.arity = 1 ∧ OpKind.pop.arity = 1 ∧
  OpKind.call.arity = 1 ∧ OpKind.jmp.arity = 1 ∧ OpKind.ldi.arity = 2 ∧ OpKind.mul.arity = 2 ∧ OpKind.add.arity = 2 ∧
  lookupOpcode 0x01 = some .hlt ∧ lookupOpcode 0x11 = some .ret ∧ lookupOpcode 0x47 = some .prn ∧
  lookupOpcode 0x45 = some .push ∧ lookupOpcode 0x46 = some .pop ∧ lookupOpcode 0x50 = some .call ∧
  lookupOpcode 0x54 = some .jmp ∧ lookupOpcode 0x82 = some .ldi ∧ lookupOpcode 0xA2 = some .mul ∧
  lookupOpcode 0xA0 = some .add

/-! ## The step -/

/-- R80: a machine takes a step exactly when it is running; from a terminal state no number of steps leads anywhere. -/
def Obligations.StepExistsExactlyWhenRunning : Prop :=
  (∀ s : State, (∃ t, step s = .next t) ↔ s.status = .running) ∧
  (∀ s : State, s.status ≠ .running → ∀ (k : Nat) (t : State), Host.Core.run Sys2Proof.core (k + 1) s ≠ .next t)

/-- THE MODEL'S CHOICE, log entry 2: asked for the step a terminal machine does not have (spec/40_cycle.md section 1), step
answers the interface's fault that names the terminal status. -/
def Obligations.TerminalMachineAnswersItsStatusAsFault : Prop :=
  (∀ s : State, s.status = .halted → step s = .fault .halted) ∧
  (∀ (s : State) (c : FaultCause), s.status = .faulted c → step s = .fault (.faulted c))

/-- When the bytes from the pc to the end of memory decode to an instruction, the step is exec of it, with nothing
around exec: the meaning itself moves the pc. -/
def Obligations.StepRunsTheDecodedInstruction : Prop :=
  ∀ (s : State) (i : Instr) (rest : List Byte),
    s.status = .running → decode (bytesFrom s.ram s.pc.toNat) = .ok i rest → step s = exec i s

/-- THE MODEL'S CHOICE, log entries 8 and 9: where withFetchWord places a table word, and the order of a table word's bytes.
With those, the very next step runs the instruction the word decodes to, at every pc from which its bytes fit: up to 255
for a one-byte instruction, 254 for two bytes, 253 for three. -/
def Obligations.PlacedTableWordIsTheNextInstruction : Prop :=
  ∀ (s : State) (nbits w : Nat) (i : Instr),
    s.ram.wf = true → decodeTableWord nbits w = some i → s.pc.toNat + i.kind.arity ≤ 255 →
      step (s.withFetchWord nbits w) = exec i (s.withFetchWord nbits w)

/-! ## The ten instruction rules, each whole, from the bytes at the pc -/

/-- R100, HLT. -/
def Obligations.HltStepFollowsItsRule : Prop :=
  ∀ s : State, s.status = .running → s.byteAtPc 0 = 0x01 →
    step s = .next { s with status := .halted } ∧
    (∀ t, step { s with status := .halted } ≠ .next t) ∧
    RunStatus.halted.code = some 0

/-- R101, LDI. -/
def Obligations.LdiStepFollowsItsRule : Prop :=
  ∀ s : State, s.status = .running → s.byteAtPc 0 = 0x82 →
    step s = .next (
      let a := s.byteAtPc 1
      let b := s.byteAtPc 2
      if 254 ≤ s.pc.toNat then { s with status := .faulted (.boundsOperand 256) }
      else if ha : a.toNat < 8 then
        let t := { s with x := s.x.set a.toNat b ha }
        if s.pc.toNat = 253 then { t with status := .faulted (.boundsNextPc 256) } else { t with pc := s.pc + 3 }
      else { s with status := .faulted (.illegalRegister a) })

/-- R102, PRN. -/
def Obligations.PrnStepFollowsItsRule : Prop :=
  ∀ s : State, s.status = .running → s.byteAtPc 0 = 0x47 →
    step s = .next (
      let a := s.byteAtPc 1
      if s.pc.toNat = 255 then { s with status := .faulted (.boundsOperand 256) }
      else if ha : a.toNat < 8 then
        let t := { s with out := s.out ++ [s.x[a.toNat]'ha] }
        if s.pc.toNat = 254 then { t with status := .faulted (.boundsNextPc 256) } else { t with pc := s.pc + 2 }
      else { s with status := .faulted (.illegalRegister a) })

/-- R122, MUL. -/
def Obligations.MulStepFollowsItsRule : Prop :=
  ∀ s : State, s.status = .running → s.byteAtPc 0 = 0xA2 →
    step s = .next (
      let a := s.byteAtPc 1
      let b := s.byteAtPc 2
      if 254 ≤ s.pc.toNat then { s with status := .faulted (.boundsOperand 256) }
      else if ha : a.toNat < 8 then
        if hb : b.toNat < 8 then
          let product := (s.x[a.toNat]'ha).toNat * (s.x[b.toNat]'hb).toNat
          let t := { s with x := s.x.set a.toNat (BitVec.ofNat 8 (product % 256)) ha }
          if s.pc.toNat = 253 then { t with status := .faulted (.boundsNextPc 256) } else { t with pc := s.pc + 3 }
        else { s with status := .faulted (.illegalRegister b) }
      else { s with status := .faulted (.illegalRegister a) })

/-- R123, ADD. -/
def Obligations.AddStepFollowsItsRule : Prop :=
  ∀ s : State, s.status = .running → s.byteAtPc 0 = 0xA0 →
    step s = .next (
      let a := s.byteAtPc 1
      let b := s.byteAtPc 2
      if 254 ≤ s.pc.toNat then { s with status := .faulted (.boundsOperand 256) }
      else if ha : a.toNat < 8 then
        if hb : b.toNat < 8 then
          let sum := (s.x[a.toNat]'ha).toNat + (s.x[b.toNat]'hb).toNat
          let t := { s with x := s.x.set a.toNat (BitVec.ofNat 8 (sum % 256)) ha }
          if s.pc.toNat = 253 then { t with status := .faulted (.boundsNextPc 256) } else { t with pc := s.pc + 3 }
        else { s with status := .faulted (.illegalRegister b) }
      else { s with status := .faulted (.illegalRegister a) })

/-- R142, PUSH. -/
def Obligations.PushStepFollowsItsRule : Prop :=
  ∀ s : State, s.status = .running → s.byteAtPc 0 = 0x45 →
    step s = .next (
      let a := s.byteAtPc 1
      if s.pc.toNat = 255 then { s with status := .faulted (.boundsOperand 256) }
      else if s.sp.toNat = 0 then { s with status := .faulted (.boundsStack (-1)) }
      else if ha : a.toNat < 8 then
        let t := { s with sp := s.sp - 1, ram := s.ram.write (s.sp.toNat - 1) (s.x[a.toNat]'ha) }
        if s.pc.toNat = 254 then { t with status := .faulted (.boundsNextPc 256) } else { t with pc := s.pc + 2 }
      else { s with status := .faulted (.illegalRegister a) })

/-- R143, POP. -/
def Obligations.PopStepFollowsItsRule : Prop :=
  ∀ s : State, s.status = .running → s.byteAtPc 0 = 0x46 →
    step s = .next (
      let a := s.byteAtPc 1
      if s.pc.toNat = 255 then { s with status := .faulted (.boundsOperand 256) }
      else if 0xF4 ≤ s.sp.toNat then { s with status := .faulted (.stackUnderflow s.sp) }
      else if ha : a.toNat < 8 then
        let t := { s with x := s.x.set a.toNat (s.ram.read s.sp.toNat) ha, sp := s.sp + 1 }
        if s.pc.toNat = 254 then { t with status := .faulted (.boundsNextPc 256) } else { t with pc := s.pc + 2 }
      else { s with status := .faulted (.illegalRegister a) })

/-- R160, CALL. -/
def Obligations.CallStepFollowsItsRule : Prop :=
  ∀ s : State, s.status = .running → s.byteAtPc 0 = 0x50 →
    step s = .next (
      let a := s.byteAtPc 1
      if s.pc.toNat = 255 then { s with status := .faulted (.boundsOperand 256) }
      else if s.sp.toNat = 0 then { s with status := .faulted (.boundsStack (-1)) }
      else if s.pc.toNat = 254 then { s with status := .faulted (.boundsNextPc 256) }
      else if ha : a.toNat < 8 then
        { s with sp := s.sp - 1, ram := s.ram.write (s.sp.toNat - 1) (s.pc + 2), pc := s.x[a.toNat]'ha }
      else { s with status := .faulted (.illegalRegister a) })

/-- R161, RET. -/
def Obligations.RetStepFollowsItsRule : Prop :=
  ∀ s : State, s.status = .running → s.byteAtPc 0 = 0x11 →
    step s = .next (
      if s.sp.toNat = 255 then { s with status := .faulted (.boundsStack 256) }
      else { s with pc := s.ram.read s.sp.toNat, sp := s.sp + 1 })

/-- R162, JMP. -/
def Obligations.JmpStepFollowsItsRule : Prop :=
  ∀ s : State, s.status = .running → s.byteAtPc 0 = 0x54 →
    step s = .next (
      let a := s.byteAtPc 1
      if s.pc.toNat = 255 then { s with status := .faulted (.boundsOperand 256) }
      else if ha : a.toNat < 8 then { s with pc := s.x[a.toNat]'ha }
      else { s with status := .faulted (.illegalRegister a) })

/-! ## Where each instruction completes -/

/-- HLT completes in every state. -/
def Obligations.HaltCompletesEverywhere : Prop :=
  ∀ s : State, exec .hlt s = .next { s with status := .halted }

/-- LDI, PRN, MUL and ADD complete with their own effect wherever a next instruction fits in memory. -/
def Obligations.RegisterInstructionsComplete : Prop :=
  (∀ (s : State) (d : Fin 8) (b : Byte), s.pc.toNat ≤ 252 →
    exec (.ldi (.reg d) b) s = .next { s with x := s.x.set d.val b, pc := s.pc + 3 }) ∧
  (∀ (s : State) (r : Fin 8), s.pc.toNat ≤ 253 →
    exec (.prn (.reg r)) s = .next { s with out := s.out ++ [s.x[r.val]], pc := s.pc + 2 }) ∧
  (∀ (s : State) (d r : Fin 8), s.pc.toNat ≤ 252 →
    exec (.mul (.reg d) (.reg r)) s = .next { s with x := s.x.set d.val (s.x[d.val] * s.x[r.val]), pc := s.pc + 3 }) ∧
  (∀ (s : State) (d r : Fin 8), s.pc.toNat ≤ 252 →
    exec (.add (.reg d) (.reg r)) s = .next { s with x := s.x.set d.val (s.x[d.val] + s.x[r.val]), pc := s.pc + 3 })

/-- PUSH completes at every sp above 0, POP on every stack that is not empty. -/
def Obligations.StackInstructionsComplete : Prop :=
  (∀ (s : State) (r : Fin 8), s.pc.toNat ≤ 253 → 1 ≤ s.sp.toNat →
    exec (.push (.reg r)) s =
      .next { s with sp := s.sp - 1, ram := s.ram.write (s.sp.toNat - 1) s.x[r.val], pc := s.pc + 2 }) ∧
  (∀ (s : State) (d : Fin 8), s.pc.toNat ≤ 253 → s.sp.toNat ≤ 0xF3 →
    exec (.pop (.reg d)) s =
      .next { s with x := s.x.set d.val (s.ram.read s.sp.toNat), sp := s.sp + 1, pc := s.pc + 2 })

/-- CALL completes at every sp above 0, RET at every sp below 255 (an empty stack too), JMP everywhere. -/
def Obligations.ControlTransfersComplete : Prop :=
  (∀ (s : State) (r : Fin 8), s.pc.toNat ≤ 253 → 1 ≤ s.sp.toNat →
    exec (.call (.reg r)) s =
      .next { s with sp := s.sp - 1, ram := s.ram.write (s.sp.toNat - 1) (s.pc + 2), pc := s.x[r.val] }) ∧
  (∀ s : State, s.sp.toNat ≤ 254 →
    exec .ret s = .next { s with pc := s.ram.read s.sp.toNat, sp := s.sp + 1 }) ∧
  (∀ (s : State) (r : Fin 8), exec (.jmp (.reg r)) s = .next { s with pc := s.x[r.val] })

/-! ## Where instructions fault -/

/-- R86: AdvanceSequential, and that the six sequential instructions end with it after their effects. -/
def Obligations.SequentialAdvanceKeepsEffectsAtTheEnd : Prop :=
  (∀ (n : Nat) (s : State), s.pc.toNat + n + 1 ≤ 255 →
    advanceSequential n s = { s with pc := BitVec.ofNat 8 (s.pc.toNat + n + 1) }) ∧
  (∀ (n : Nat) (s : State), 255 < s.pc.toNat + n + 1 →
    advanceSequential n s = { s with status := .faulted (.boundsNextPc (s.pc.toNat + n + 1)) }) ∧
  (∀ (s : State) (d r : Fin 8) (b : Byte),
    exec (.ldi (.reg d) b) s = .next (advanceSequential 2 { s with x := s.x.set d.val b }) ∧
    exec (.prn (.reg r)) s = .next (advanceSequential 1 { s with out := s.out ++ [s.x[r.val]] }) ∧
    exec (.mul (.reg d) (.reg r)) s =
      .next (advanceSequential 2 { s with x := s.x.set d.val (s.x[d.val] * s.x[r.val]) }) ∧
    exec (.add (.reg d) (.reg r)) s =
      .next (advanceSequential 2 { s with x := s.x.set d.val (s.x[d.val] + s.x[r.val]) }) ∧
    (1 ≤ s.sp.toNat → exec (.push (.reg r)) s =
      .next (advanceSequential 1 { s with sp := s.sp - 1, ram := s.ram.write (s.sp.toNat - 1) s.x[r.val] })) ∧
    (s.sp.toNat ≤ 0xF3 → exec (.pop (.reg d)) s =
      .next (advanceSequential 1 { s with x := s.x.set d.val (s.ram.read s.sp.toNat), sp := s.sp + 1 })))

/-- Where a form with an illegal register operand faults, and which check comes before it. -/
def Obligations.IllegalRegisterFormsFaultInOrder : Prop :=
  ∀ (s : State) (v w b : Byte) (d : Fin 8) (o : RegOperand),
    exec (.ldi (.illegal v) b) s = .next { s with status := .faulted (.illegalRegister v) } ∧
    exec (.prn (.illegal v)) s = .next { s with status := .faulted (.illegalRegister v) } ∧
    exec (.jmp (.illegal v)) s = .next { s with status := .faulted (.illegalRegister v) } ∧
    exec (.mul (.illegal v) o) s = .next { s with status := .faulted (.illegalRegister v) } ∧
    exec (.mul (.reg d) (.illegal w)) s = .next { s with status := .faulted (.illegalRegister w) } ∧
    exec (.add (.illegal v) o) s = .next { s with status := .faulted (.illegalRegister v) } ∧
    exec (.add (.reg d) (.illegal w)) s = .next { s with status := .faulted (.illegalRegister w) } ∧
    exec (.push (.illegal v)) s =
      .next { s with status := .faulted (if s.sp = 0 then .boundsStack (-1) else .illegalRegister v) } ∧
    exec (.pop (.illegal v)) s =
      .next { s with status := .faulted (if 0xF4 ≤ s.sp.toNat then .stackUnderflow s.sp else .illegalRegister v) } ∧
    exec (.call (.illegal v)) s =
      .next { s with status := .faulted (if s.sp = 0 then .boundsStack (-1)
        else if 254 ≤ s.pc.toNat then .boundsNextPc (s.pc.toNat + 2) else .illegalRegister v) }

/-- R182: ILLEGAL_OPCODE is recorded exactly for an opcode byte that is none of the ten, with that byte, and
nothing else changes. -/
def Obligations.IllegalOpcodeRaisedExactlyForUnknownBytes : Prop :=
  ∀ (s t : State) (v : Byte), s.status = .running → step s = .next t →
    (t.status = .faulted (.illegalOpcode v) ↔
      v = s.byteAtPc 0 ∧ s.byteAtPc 0 ∉ [0x01, 0x82, 0x47, 0xA2, 0xA0, 0x45, 0x46, 0x50, 0x11, 0x54]) ∧
    (t.status = .faulted (.illegalOpcode v) → t = { s with status := .faulted (.illegalOpcode v) })

/-- R183: STACK_UNDERFLOW is recorded exactly by a POP whose operand lies in memory, at sp ≥ 0xF4, with sp. -/
def Obligations.StackUnderflowRaisedExactlyByPop : Prop :=
  ∀ (s t : State) (v : Byte), s.status = .running → step s = .next t →
    (t.status = .faulted (.stackUnderflow v) ↔
      s.byteAtPc 0 = 0x46 ∧ s.pc.toNat ≤ 254 ∧ 0xF4 ≤ s.sp.toNat ∧ v = s.sp)

/-- R184: BOUNDS_OPERAND(256) is recorded exactly by an instruction with operands at address 255, or with two
at address 254. -/
def Obligations.BoundsOperandRaisedExactlyAtTheEndOfMemory : Prop :=
  ∀ (s t : State) (addr : Nat), s.status = .running → step s = .next t →
    (t.status = .faulted (.boundsOperand addr) ↔
      addr = 256 ∧
        ((s.pc.toNat = 255 ∧ s.byteAtPc 0 ∈ [0x82, 0x47, 0xA2, 0xA0, 0x45, 0x46, 0x50, 0x54]) ∨
         (s.pc.toNat = 254 ∧ s.byteAtPc 0 ∈ [0x82, 0xA2, 0xA0])))

/-- R185: BOUNDS_STACK is recorded exactly by PUSH or CALL at sp = 0, with -1, and by RET at sp = 255, with 256. -/
def Obligations.BoundsStackRaisedExactlyAtTheEndsOfTheStack : Prop :=
  ∀ (s t : State) (value : Int), s.status = .running → step s = .next t →
    (t.status = .faulted (.boundsStack value) ↔
      (value = -1 ∧ s.byteAtPc 0 ∈ [0x45, 0x50] ∧ s.pc.toNat ≤ 254 ∧ s.sp.toNat = 0) ∨
      (value = 256 ∧ s.byteAtPc 0 = 0x11 ∧ s.sp.toNat = 255))

/-- R186: BOUNDS_NEXT_PC(256) is recorded exactly by a sequential instruction whose last byte is at 255 and whose own
checks pass, and by CALL at pc = 254, where nothing else changes. -/
def Obligations.BoundsNextPcRaisedExactlyPastTheEnd : Prop :=
  ∀ (s t : State) (addr : Nat), s.status = .running → step s = .next t →
    (t.status = .faulted (.boundsNextPc addr) ↔
      addr = 256 ∧
        ((s.byteAtPc 0 = 0x82 ∧ s.pc.toNat = 253 ∧ (s.byteAtPc 1).toNat < 8) ∨
         (s.byteAtPc 0 ∈ [0xA2, 0xA0] ∧ s.pc.toNat = 253 ∧ (s.byteAtPc 1).toNat < 8 ∧ (s.byteAtPc 2).toNat < 8) ∨
         (s.byteAtPc 0 = 0x47 ∧ s.pc.toNat = 254 ∧ (s.byteAtPc 1).toNat < 8) ∨
         (s.byteAtPc 0 = 0x45 ∧ s.pc.toNat = 254 ∧ 1 ≤ s.sp.toNat ∧ (s.byteAtPc 1).toNat < 8) ∨
         (s.byteAtPc 0 = 0x46 ∧ s.pc.toNat = 254 ∧ s.sp.toNat < 0xF4 ∧ (s.byteAtPc 1).toNat < 8) ∨
         (s.byteAtPc 0 = 0x50 ∧ s.pc.toNat = 254 ∧ 1 ≤ s.sp.toNat))) ∧
    (t.status = .faulted (.boundsNextPc addr) → t.pc = s.pc ∧
      (s.byteAtPc 0 = 0x50 → t = { s with status := .faulted (.boundsNextPc addr) }))

/-- R187: ILLEGAL_REGISTER is recorded exactly by an instruction that reaches the use of a register operand byte
above 7, with that byte. -/
def Obligations.IllegalRegisterRaisedExactlyWhereUsed : Prop :=
  ∀ (s t : State) (v : Byte), s.status = .running → step s = .next t →
    (t.status = .faulted (.illegalRegister v) ↔
      (v = s.byteAtPc 1 ∧ 7 < v.toNat ∧
        ((s.byteAtPc 0 ∈ [0x82, 0xA2, 0xA0] ∧ s.pc.toNat ≤ 253) ∨
         (s.byteAtPc 0 ∈ [0x47, 0x54] ∧ s.pc.toNat ≤ 254) ∨
         (s.byteAtPc 0 = 0x45 ∧ s.pc.toNat ≤ 254 ∧ 1 ≤ s.sp.toNat) ∨
         (s.byteAtPc 0 = 0x46 ∧ s.pc.toNat ≤ 254 ∧ s.sp.toNat < 0xF4) ∨
         (s.byteAtPc 0 = 0x50 ∧ s.pc.toNat ≤ 253 ∧ 1 ≤ s.sp.toNat))) ∨
      (v = s.byteAtPc 2 ∧ 7 < v.toNat ∧ s.byteAtPc 0 ∈ [0xA2, 0xA0] ∧ s.pc.toNat ≤ 253 ∧ (s.byteAtPc 1).toNat < 8))

/-- R188: no step of a running machine records ALU_UNSUPPORTED. -/
def Obligations.AluUnsupportedIsUnreachable : Prop :=
  ∀ s t : State, s.status = .running → step s = .next t → t.status ≠ .faulted .aluUnsupported

/-- R190: the status after a step is the first failing check of the spec's order; if none fails it is HALTED after HLT
and RUNNING otherwise. -/
def Obligations.FirstFailingCheckIsTheStatus : Prop :=
  ∀ s : State, s.status = .running →
    ∃ t, step s = .next t ∧
      t.status = (match firstFault s with
        | some c => .faulted c
        | none => if s.byteAtPc 0 = 0x01 then .halted else .running)

/-- R90, R191: a fault changes the status and nothing else, but for BOUNDS_NEXT_PC of a sequential instruction, where
that instruction's effects stay and the pc keeps its address. -/
def Obligations.FaultsChangeOnlyTheStatus : Prop :=
  ∀ (s t : State) (c : FaultCause), s.status = .running → step s = .next t → t.status = .faulted c →
    t.pc = s.pc ∧
    ((∀ addr, c = .boundsNextPc addr → isSequential (s.byteAtPc 0) = false) → t = { s with status := .faulted c }) ∧
    (∀ addr, c = .boundsNextPc addr → isSequential (s.byteAtPc 0) = true →
      ∃ i rest u, decode (bytesFrom s.ram s.pc.toNat) = .ok i rest ∧
        exec i { s with pc := 0 } = .next u ∧ u.status = .running ∧
        t = { u with pc := s.pc, status := .faulted c })

/-! ## Frames -/

/-- LDI, MUL and ADD change no register but Ra, and neither sp, out nor any byte of memory. -/
def Obligations.RegisterWritersFrame : Prop :=
  ∀ (i : Instr) (a b : RegOperand) (v : Byte) (s t : State),
    (i = .ldi a v ∨ i = .mul a b ∨ i = .add a b) → exec i s = .next t →
      (∀ r : Fin 8, a ≠ .reg r → t.reg r = s.reg r) ∧ t.sp = s.sp ∧ t.out = s.out ∧
      (∀ addr : Nat, t.ram.read addr = s.ram.read addr) ∧
      (t.status = s.status ∨ ∃ c, t.status = .faulted c)

/-- PRN changes no register, not sp, no byte of memory, and at most appends one value to out. -/
def Obligations.PrintFrame : Prop :=
  ∀ (a : RegOperand) (s t : State), exec (.prn a) s = .next t →
    (∀ r : Fin 8, t.reg r = s.reg r) ∧ t.sp = s.sp ∧ (∀ addr : Nat, t.ram.read addr = s.ram.read addr) ∧
    (t.out = s.out ∨ ∃ r : Fin 8, a = .reg r ∧ t.out = s.out ++ [s.reg r]) ∧
    (t.status = s.status ∨ ∃ c, t.status = .faulted c)

/-- POP changes no register but Ra and the stack pointer, not out, and no byte of memory: the popped byte stays. -/
def Obligations.PopFrame : Prop :=
  ∀ (a : RegOperand) (s t : State), exec (.pop a) s = .next t →
    (∀ r : Fin 8, a ≠ .reg r → t.reg r = s.reg r) ∧ (t.sp = s.sp ∨ t.sp = s.sp + 1) ∧ t.out = s.out ∧
    (∀ addr : Nat, t.ram.read addr = s.ram.read addr) ∧
    (t.status = s.status ∨ ∃ c, t.status = .faulted c)

/-- PUSH and CALL store one byte, at the address SpDec gives, and change no other byte of memory, no register and not
out; where SpDec raises its cause they change no byte at all. -/
def Obligations.PushAndCallStoreOneByte : Prop :=
  ∀ (i : Instr) (a : RegOperand) (s t : State), (i = .push a ∨ i = .call a) → exec i s = .next t →
    (∀ r : Fin 8, t.reg r = s.reg r) ∧ t.out = s.out ∧
    (∀ top : Byte, spDec s = .ok top →
      (t.sp = s.sp ∨ t.sp = top) ∧ ∀ addr : Nat, addr ≠ top.toNat → t.ram.read addr = s.ram.read addr) ∧
    (∀ c, spDec s = .error c → t.sp = s.sp ∧ ∀ addr : Nat, t.ram.read addr = s.ram.read addr) ∧
    (t.status = s.status ∨ ∃ c, t.status = .faulted c)

/-- HLT, RET and JMP change no register, not out and no byte of memory; only RET moves sp; only HLT sets HALTED. -/
def Obligations.HaltReturnAndJumpFrame : Prop :=
  ∀ (i : Instr) (a : RegOperand) (s t : State), (i = .hlt ∨ i = .ret ∨ i = .jmp a) → exec i s = .next t →
    (∀ r : Fin 8, t.reg r = s.reg r) ∧ t.out = s.out ∧ (∀ addr : Nat, t.ram.read addr = s.ram.read addr) ∧
    (t.sp = s.sp ∨ i = .ret ∧ t.sp = s.sp + 1) ∧
    (i = .hlt → t.pc = s.pc ∧ t.status = .halted) ∧
    (i ≠ .hlt → t.status = s.status ∨ ∃ c, t.status = .faulted c)

/-! ## Whole-machine rules -/

/-- Only the instructions the spec names change each piece of state: the registers (R22), sp (R25), out (R27) and
memory (R44). -/
def Obligations.OnlyTheNamedInstructionsChangeEachPart : Prop :=
  ∀ s t : State, step s = .next t →
    (t.x ≠ s.x → s.byteAtPc 0 ∈ [0x82, 0xA2, 0xA0, 0x46]) ∧
    (t.sp ≠ s.sp → s.byteAtPc 0 ∈ [0x45, 0x46, 0x50, 0x11]) ∧
    (t.out ≠ s.out → s.byteAtPc 0 = 0x47) ∧
    (t.ram ≠ s.ram → s.byteAtPc 0 ∈ [0x45, 0x50]) ∧
    (t.status = .halted ↔ s.byteAtPc 0 = 0x01)

/-- The only byte a step can change is the one below the stack pointer, by PUSH or CALL. -/
def Obligations.StepStoresOnlyBelowTheStackPointer : Prop :=
  ∀ (s t : State) (addr : Nat), step s = .next t → t.ram.read addr ≠ s.ram.read addr →
    s.byteAtPc 0 ∈ [0x45, 0x50] ∧ addr + 1 = s.sp.toNat

/-- A step reads memory at pc, pc+1, pc+2 and sp only: two states that agree there, and outside memory, go to states
that agree outside memory; and in canonical memories no byte of memory depends on another cell either: at every
address both steps leave what they found, or both leave the same byte. -/
def Obligations.StepReadsOnlyTheNamedCells : Prop :=
  ∀ (s t : State) (m : Memory),
    (∀ addr : Nat, addr ≤ 255 →
      addr = s.pc.toNat ∨ addr = s.pc.toNat + 1 ∨ addr = s.pc.toNat + 2 ∨ addr = s.sp.toNat →
      m.read addr = s.ram.read addr) →
    step s = .next t →
    ∃ u, step { s with ram := m } = .next u ∧ u = { t with ram := u.ram } ∧
      (s.ram.wf = true → m.wf = true → ∀ addr : Nat,
        (t.ram.read addr = s.ram.read addr ∧ u.ram.read addr = m.read addr) ∨ u.ram.read addr = t.ram.read addr)

/-- The output trace only grows, by the value PRN emits, and nothing reads it back: with any other trace before the
step, the step does the same and appends the same. -/
def Obligations.OutputOnlyGrowsAndIsNeverReadBack : Prop :=
  ∀ (s t : State) (o : List Byte), step s = .next t →
    ∃ emitted : List Byte,
      (emitted = [] ∨ s.byteAtPc 0 = 0x47 ∧ ∃ r : Fin 8, (s.byteAtPc 1).toNat = r.val ∧ emitted = [s.reg r]) ∧
      t.out = s.out ++ emitted ∧
      step { s with out := o } = .next { t with out := o ++ emitted }

/-- A PUSH followed by a POP copies the register and restores sp. -/
def Obligations.PushThenPopCopiesTheRegister : Prop :=
  ∀ (s t : State) (r1 r2 : Fin 8),
    s.ram.wf = true → s.sp.toNat ≤ 0xF4 → s.status = .running → step s = .next t → t.status = .running →
    s.byteAtPc 0 = 0x45 → (s.byteAtPc 1).toNat = r1.val → t.byteAtPc 0 = 0x46 → (t.byteAtPc 1).toNat = r2.val →
    t.pc.toNat ≤ 253 →
      step t = .next { t with x := s.x.set r2.val s.x[r1.val], sp := s.sp, pc := s.pc + 4 }

/-- After a CALL, a RET that finds sp and the return byte as the CALL left them returns to the CALL's address + 2 and
restores sp, whatever the subroutine did in between. -/
def Obligations.ReturnGoesToTheInstructionAfterTheCall : Prop :=
  ∀ s t u : State,
    s.ram.wf = true → s.status = .running → s.byteAtPc 0 = 0x50 → step s = .next t → t.status = .running →
    u.status = .running → u.byteAtPc 0 = 0x11 → u.sp = t.sp → u.ram.read u.sp.toNat = t.ram.read t.sp.toNat →
      step u = .next { u with pc := s.pc + 2, sp := s.sp }

/-- A byte PUSH stores is the byte the next fetch of that address returns: a state that fetches there runs it as the
opcode, without any fence. -/
def Obligations.PushedByteIsFetchedAsCode : Prop :=
  ∀ (s t u : State) (r : Fin 8),
    s.ram.wf = true → 1 ≤ s.sp.toNat → exec (.push (.reg r)) s = .next t →
    u.ram = t.ram → u.pc = t.sp → u.status = .running →
      u.byteAtPc 0 = s.reg r ∧
      (s.reg r = 0x01 → step u = .next { u with status := .halted }) ∧
      (lookupOpcode (s.reg r) = none → step u = .next { u with status := .faulted (.illegalOpcode (s.reg r)) })

/-! ## The shared operations -/

/-- MemRead and MemWrite: inside 0..255 a read gives the byte last written to the address and a write keeps the
canonical form; outside it neither takes place and the cause is raised. -/
def Obligations.MemoryReturnsTheByteLastWritten : Prop :=
  ∀ (s : State) (addr : Nat) (v : Byte) (c : FaultCause), s.ram.wf = true →
    (addr ≤ 255 → ∃ m, memWrite s addr v c = .ok { s with ram := m } ∧ m.wf = true ∧
      ∀ b : Nat, memRead { s with ram := m } b c =
        if 255 < b then .error c else if b = addr then .ok v else memRead s b c) ∧
    (255 < addr → memWrite s addr v c = .error c ∧ memRead s addr c = .error c)

/-- Two canonical memories that read alike at every address are equal. -/
def Obligations.CanonicalMemoriesThatReadAlikeAreEqual : Prop :=
  ∀ m m' : Memory, m.wf = true → m'.wf = true → (∀ addr : Nat, addr ≤ 255 → m.read addr = m'.read addr) → m = m'

/-- SpDec, SpInc and the empty-stack test. -/
def Obligations.StackPointerMovesWithoutWrap : Prop :=
  ∀ s : State,
    spDec s = (if s.sp.toNat = 0 then .error (.boundsStack (-1)) else .ok (BitVec.ofNat 8 (s.sp.toNat - 1))) ∧
    spInc s = (if s.sp.toNat = 255 then .error (.boundsStack 256) else .ok (BitVec.ofNat 8 (s.sp.toNat + 1))) ∧
    (stackEmpty s = true ↔ 0xF4 ≤ s.sp.toNat)

/-- R120: the ALU reads both operands before it writes, keeps the low byte of the exact result, and writes x[d] only. -/
def Obligations.AluKeepsTheLowByteOfTheExactResult : Prop :=
  ∀ (d r : Fin 8) (s : State),
    aluApply .add d r s =
      { s with x := s.x.set d.val (BitVec.ofNat 8 ((s.x[d.val].toNat + s.x[r.val].toNat) % 256)) } ∧
    aluApply .mul d r s =
      { s with x := s.x.set d.val (BitVec.ofNat 8 ((s.x[d.val].toNat * s.x[r.val].toNat) % 256)) }

/-- ADD and MUL are commutative in their values: the other order of the operands computes the same byte and puts it in the
other register, and neither order changes any third register. -/
def Obligations.AddAndMulCommuteInTheirValues : Prop :=
  ∀ (op : AluOp) (d r : Fin 8) (s : State),
    (aluApply op d r s).reg d = (aluApply op r d s).reg r ∧
    ∀ i : Fin 8, i ≠ d → (aluApply op d r s).reg i = s.reg i

/-- A register operand is the whole byte: 0..7 select a register, and a byte above 7 raises ILLEGAL_REGISTER with it. -/
def Obligations.RegisterOperandIsTheWholeByte : Prop :=
  ∀ v : Byte,
    (∀ h : v.toNat ≤ 7, regIdx (.ofByte v) = .ok ⟨v.toNat, Nat.lt_succ_of_le h⟩) ∧
    (7 < v.toNat → regIdx (.ofByte v) = .error (.illegalRegister v))

/-- The status codes the source itself gives, and that no two outcomes share one; the numbers 4 to 8 are labels the
spec chose, and this statement does not rest on them. -/
def Obligations.StatusCodesAreTheSourcesAndDistinct : Prop :=
  RunStatus.running.code = none ∧
  RunStatus.halted.code = some 0 ∧
  (∀ op, (RunStatus.faulted (.illegalOpcode op)).code = some 1) ∧
  loadErrorCode = 2 ∧
  (∀ v, (RunStatus.faulted (.stackUnderflow v)).code = some 3) ∧
  (∀ (op v r : Byte) (addr next : Nat) (value : Int),
    [0, loadErrorCode, FaultCause.code (.illegalOpcode op), FaultCause.code (.stackUnderflow v),
      FaultCause.code (.boundsOperand addr), FaultCause.code (.boundsStack value),
      FaultCause.code (.boundsNextPc next), FaultCause.code (.illegalRegister r),
      FaultCause.code .aluUnsupported].Nodup)
end

