-- ==== Sys2Proof/Laws/State.lean ====
section
/-! SUPPORT. One lemma per field and update of State, so that no proof unfolds a record update. -/

namespace Sys2Proof.Machine

variable (s : State)

@[simp] theorem State.setReg_ram (i : Fin Config.numRegs) (v : Byte) : (s.setReg i v).ram = s.ram := rfl
@[simp] theorem State.setReg_x (i : Fin Config.numRegs) (v : Byte) : (s.setReg i v).x = s.x.set i.val v := rfl
@[simp] theorem State.setReg_pc (i : Fin Config.numRegs) (v : Byte) : (s.setReg i v).pc = s.pc := rfl
@[simp] theorem State.setReg_sp (i : Fin Config.numRegs) (v : Byte) : (s.setReg i v).sp = s.sp := rfl
@[simp] theorem State.setReg_status (i : Fin Config.numRegs) (v : Byte) : (s.setReg i v).status = s.status := rfl
@[simp] theorem State.setReg_out (i : Fin Config.numRegs) (v : Byte) : (s.setReg i v).out = s.out := rfl

@[simp] theorem State.setPc_ram (v : Byte) : (s.setPc v).ram = s.ram := rfl
@[simp] theorem State.setPc_x (v : Byte) : (s.setPc v).x = s.x := rfl
@[simp] theorem State.setPc_pc (v : Byte) : (s.setPc v).pc = v := rfl
@[simp] theorem State.setPc_sp (v : Byte) : (s.setPc v).sp = s.sp := rfl
@[simp] theorem State.setPc_status (v : Byte) : (s.setPc v).status = s.status := rfl
@[simp] theorem State.setPc_out (v : Byte) : (s.setPc v).out = s.out := rfl

@[simp] theorem State.setSp_ram (v : Byte) : (s.setSp v).ram = s.ram := rfl
@[simp] theorem State.setSp_x (v : Byte) : (s.setSp v).x = s.x := rfl
@[simp] theorem State.setSp_pc (v : Byte) : (s.setSp v).pc = s.pc := rfl
@[simp] theorem State.setSp_sp (v : Byte) : (s.setSp v).sp = v := rfl
@[simp] theorem State.setSp_status (v : Byte) : (s.setSp v).status = s.status := rfl
@[simp] theorem State.setSp_out (v : Byte) : (s.setSp v).out = s.out := rfl

@[simp] theorem State.emit_ram (v : Byte) : (s.emit v).ram = s.ram := rfl
@[simp] theorem State.emit_x (v : Byte) : (s.emit v).x = s.x := rfl
@[simp] theorem State.emit_pc (v : Byte) : (s.emit v).pc = s.pc := rfl
@[simp] theorem State.emit_sp (v : Byte) : (s.emit v).sp = s.sp := rfl
@[simp] theorem State.emit_status (v : Byte) : (s.emit v).status = s.status := rfl
@[simp] theorem State.emit_out (v : Byte) : (s.emit v).out = s.out ++ [v] := rfl

@[simp] theorem State.halt_ram : (s.halt).ram = s.ram := rfl
@[simp] theorem State.halt_x : (s.halt).x = s.x := rfl
@[simp] theorem State.halt_pc : (s.halt).pc = s.pc := rfl
@[simp] theorem State.halt_sp : (s.halt).sp = s.sp := rfl
@[simp] theorem State.halt_status : (s.halt).status = .halted := rfl
@[simp] theorem State.halt_out : (s.halt).out = s.out := rfl

@[simp] theorem takeFault_ram (c : FaultCause) : (takeFault c s).ram = s.ram := rfl
@[simp] theorem takeFault_x (c : FaultCause) : (takeFault c s).x = s.x := rfl
@[simp] theorem takeFault_pc (c : FaultCause) : (takeFault c s).pc = s.pc := rfl
@[simp] theorem takeFault_sp (c : FaultCause) : (takeFault c s).sp = s.sp := rfl
@[simp] theorem takeFault_status (c : FaultCause) : (takeFault c s).status = .faulted c := rfl
@[simp] theorem takeFault_out (c : FaultCause) : (takeFault c s).out = s.out := rfl

/-- A register reads what was last written to it, and writing it leaves the others alone (R21). -/
@[simp] theorem State.reg_setReg (d i : Fin Config.numRegs) (v : Byte) :
    (s.setReg d v).reg i = if d = i then v else s.reg i := by
  simp [State.reg, State.setReg, Vector.getElem_set, Fin.ext_iff]

@[simp] theorem State.reg_setPc (i : Fin Config.numRegs) (v : Byte) : (s.setPc v).reg i = s.reg i := rfl
@[simp] theorem State.reg_setSp (i : Fin Config.numRegs) (v : Byte) : (s.setSp v).reg i = s.reg i := rfl
@[simp] theorem State.reg_emit (i : Fin Config.numRegs) (v : Byte) : (s.emit v).reg i = s.reg i := rfl
@[simp] theorem State.reg_halt (i : Fin Config.numRegs) : s.halt.reg i = s.reg i := rfl
@[simp] theorem reg_takeFault (i : Fin Config.numRegs) (c : FaultCause) : (takeFault c s).reg i = s.reg i := rfl

end Sys2Proof.Machine
end

