-- ==== Sys2Proof/Laws/Memory.lean ====
section
/-! SUPPORT. The memory: reading after writing, and the canonical form every operation keeps. -/

namespace Sys2Proof.Machine

/-- What the canonical form says of a listed first cell. -/
theorem cellsWf_cons {lo a : Nat} {v : Byte} {rest : List Host.Cell} :
    cellsWf lo ((a, v) :: rest) = true ↔ lo ≤ a ∧ a < 256 ∧ v ≠ 0#8 ∧ cellsWf (a + 1) rest = true := by
  simp [cellsWf, and_assoc]

/-- A canonical list is canonical above any lower bound. -/
theorem cellsWf_mono {lo lo' : Nat} {cs : List Host.Cell} (h : cellsWf lo cs = true) (hle : lo' ≤ lo) :
    cellsWf lo' cs = true := by
  cases cs with
  | nil => rfl
  | cons c rest =>
    obtain ⟨hlo, hrest⟩ := cellsWf_cons.mp h
    exact cellsWf_cons.mpr ⟨hle.trans hlo, hrest⟩

/-- An address below every listed one reads 0. -/
theorem cellsRead_below {lo a : Nat} {cs : List Host.Cell} (h : cellsWf lo cs = true) (ha : a < lo) :
    cellsRead cs a = 0#8 := by
  induction cs generalizing lo with
  | nil => rfl
  | cons c rest ih =>
    obtain ⟨hlo, -, -, hrest⟩ := cellsWf_cons.mp h
    have hne : c.1 ≠ a := by omega
    simpa [cellsRead, hne] using ih hrest (by omega)

/-- A write keeps the canonical form. -/
theorem cellsWrite_wf {lo a : Nat} {v : Byte} {cs : List Host.Cell} (h : cellsWf lo cs = true)
    (hlo : lo ≤ a) (ha : a < 256) : cellsWf lo (cellsWrite cs a v) = true := by
  induction cs generalizing lo with
  | nil =>
    by_cases hv : v = 0#8
    · simp [cellsWrite, hv, cellsWf]
    · simpa [cellsWrite, hv] using (cellsWf_cons (rest := [])).mpr ⟨hlo, ha, hv, rfl⟩
  | cons c rest ih =>
    obtain ⟨b, w⟩ := c
    obtain ⟨hb, hb', hw, hrest⟩ := cellsWf_cons.mp h
    rcases Nat.lt_trichotomy a b with hab | rfl | hab
    · by_cases hv : v = 0#8
      · simpa [cellsWrite, hab, hv] using h
      · have := cellsWf_cons.mpr ⟨hlo, ha, hv, cellsWf_cons.mpr ⟨hab, hb', hw, hrest⟩⟩
        simpa [cellsWrite, hab, hv] using this
    · by_cases hv : v = 0#8
      · simpa [cellsWrite, hv] using cellsWf_mono hrest (by omega : lo ≤ a + 1)
      · simpa [cellsWrite, hv] using cellsWf_cons.mpr ⟨hlo, ha, hv, hrest⟩
    · have := cellsWf_cons.mpr ⟨hb, hb', hw, ih hrest (by omega : b + 1 ≤ a)⟩
      simpa [cellsWrite, Nat.not_lt.mpr hab.le, Nat.ne_of_gt hab] using this

/-- A write leaves every other address alone. -/
theorem cellsRead_write_other {a b : Nat} (v : Byte) (cs : List Host.Cell) (hne : b ≠ a) :
    cellsRead (cellsWrite cs a v) b = cellsRead cs b := by
  induction cs with
  | nil => by_cases hv : v = 0#8 <;> simp [cellsWrite, cellsRead, hv, hne.symm]
  | cons c rest ih =>
    obtain ⟨d, w⟩ := c
    rcases Nat.lt_trichotomy a d with had | rfl | had
    · by_cases hv : v = 0#8 <;> simp [cellsWrite, cellsRead, had, hv, hne.symm]
    · by_cases hv : v = 0#8 <;> simp [cellsWrite, cellsRead, hv, hne.symm]
    · simp [cellsWrite, cellsRead, Nat.not_lt.mpr had.le, Nat.ne_of_gt had, ih]

/-- In a canonical memory an address reads what was last written to it. -/
theorem cellsRead_write_same {lo a : Nat} {v : Byte} {cs : List Host.Cell} (h : cellsWf lo cs = true) :
    cellsRead (cellsWrite cs a v) a = v := by
  induction cs generalizing lo with
  | nil => by_cases hv : v = 0#8 <;> simp [cellsWrite, cellsRead, hv]
  | cons c rest ih =>
    obtain ⟨b, w⟩ := c
    obtain ⟨-, -, -, hrest⟩ := cellsWf_cons.mp h
    rcases Nat.lt_trichotomy a b with hab | rfl | hab
    · by_cases hv : v = 0#8
      · simpa [cellsWrite, cellsRead, hab, hv, Nat.ne_of_gt hab] using cellsRead_below hrest (by omega : a < b + 1)
      · simp [cellsWrite, cellsRead, hab, hv]
    · by_cases hv : v = 0#8
      · simpa [cellsWrite, hv] using cellsRead_below hrest (Nat.lt_succ_self a)
      · simp [cellsWrite, cellsRead, hv]
    · simpa [cellsWrite, cellsRead, Nat.not_lt.mpr hab.le, Nat.ne_of_gt hab, Nat.ne_of_lt hab] using ih hrest

theorem Memory.write_wf {m : Memory} {a : Nat} (v : Byte) (h : m.wf = true) (ha : a < 256) :
    (m.write a v).wf = true :=
  cellsWrite_wf h (Nat.zero_le a) ha

theorem Memory.read_write_same {m : Memory} (a : Nat) (v : Byte) (h : m.wf = true) : (m.write a v).read a = v :=
  cellsRead_write_same h

theorem Memory.read_write_other (m : Memory) {a b : Nat} (v : Byte) (hne : b ≠ a) :
    (m.write a v).read b = m.read b :=
  cellsRead_write_other v m.cells hne

/-- Placing bytes keeps the canonical form. -/
theorem placeBytes_wf {m : Memory} (bytes : List Byte) (addr : Nat) (h : m.wf = true) :
    (placeBytes m addr bytes).wf = true := by
  induction bytes generalizing m addr with
  | nil => exact h
  | cons v rest ih =>
    by_cases ha : addr ≤ 255
    · simpa [placeBytes, ha] using ih (addr + 1) (Memory.write_wf v h (by omega))
    · simpa [placeBytes, ha] using h

/-- The reset memory, and every image the loader accepts, is in canonical form. -/
theorem reset_ram_wf : State.reset.ram.wf = true := rfl

/-- An image is loaded exactly when it meets R211's conditions. -/
theorem loadImage_isSome (image : List Nat) : (loadImage image).isSome = imageOk image := by
  unfold loadImage
  split <;> simp_all

/-- The image conditions on a run of one value. -/
theorem imageOk_replicate (n v : Nat) :
    imageOk (List.replicate n v) = (decide (n ≤ 256) && if n = 0 then true else decide (v < 256)) := by
  simp only [imageOk, List.length_replicate, List.all_replicate]

theorem loadImage_ram_wf {image : List Nat} {s : State} (h : loadImage image = some s) : s.ram.wf = true := by
  unfold loadImage at h
  split at h
  · cases h
    exact placeBytes_wf _ 0 reset_ram_wf
  · cases h

theorem withFetchWord_ram_wf {s : State} (nbits w : Nat) (h : s.ram.wf = true) :
    (s.withFetchWord nbits w).ram.wf = true :=
  placeBytes_wf _ _ h

end Sys2Proof.Machine
end

