-- ==== Sys2Proof/Laws/Ops.lean ====
section
/-! SUPPORT. What each shared operation can do, said once; later proofs cite these and do not unfold them. -/

namespace Sys2Proof.Machine

@[simp] theorem ok_bind {α β : Type} (a : α) (f : α → Except FaultCause β) : (Except.ok a >>= f) = f a := rfl

@[simp] theorem error_bind {α β : Type} (c : FaultCause) (f : α → Except FaultCause β) :
    (Except.error c >>= f) = Except.error c := rfl

/-- A step of a computation that may raise: it completes only through a value of its first part. -/
theorem bind_ok_iff {α β : Type} {e : Except FaultCause α} {f : α → Except FaultCause β} {b : β} :
    (e >>= f) = .ok b ↔ ∃ a, e = .ok a ∧ f a = .ok b := by
  cases e <;> simp

@[simp] theorem commit_ok (s t : State) : commit s (.ok t) = .next t := rfl

@[simp] theorem commit_error (s : State) (c : FaultCause) : commit s (.error c) = .next (takeFault c s) := rfl

/-- Everything `commit` can answer: the staged state, or the fault with nothing else changed (R90). -/
theorem commit_cases {s t : State} {e : Except FaultCause State} (h : commit s e = .next t) :
    e = .ok t ∨ ∃ c, e = .error c ∧ t = takeFault c s := by
  cases e with
  | ok u => exact .inl (by simpa using h)
  | error c => exact .inr ⟨c, rfl, by simpa using h.symm⟩

@[simp] theorem memRead_byte (s : State) (a : Byte) (c : FaultCause) :
    memRead s a.toNat c = .ok (s.ram.read a.toNat) :=
  if_pos (Nat.le_of_lt_succ a.isLt)

@[simp] theorem memWrite_byte (s : State) (a v : Byte) (c : FaultCause) :
    memWrite s a.toNat v c = .ok { s with ram := s.ram.write a.toNat v } :=
  if_pos (Nat.le_of_lt_succ a.isLt)

/-- Everything a read can do (R41). -/
theorem memRead_cases (s : State) (addr : Nat) (c : FaultCause) :
    (addr ≤ 255 ∧ memRead s addr c = .ok (s.ram.read addr)) ∨ (255 < addr ∧ memRead s addr c = .error c) := by
  by_cases h : addr ≤ 255
  · exact .inl ⟨h, if_pos h⟩
  · exact .inr ⟨by omega, if_neg h⟩

/-- Everything a write can do (R42). -/
theorem memWrite_cases (s : State) (addr : Nat) (v : Byte) (c : FaultCause) :
    (addr ≤ 255 ∧ memWrite s addr v c = .ok { s with ram := s.ram.write addr v }) ∨
      (255 < addr ∧ memWrite s addr v c = .error c) := by
  by_cases h : addr ≤ 255
  · exact .inl ⟨h, if_pos h⟩
  · exact .inr ⟨by omega, if_neg h⟩

/-- Everything SpDec can do (R140). -/
theorem spDec_cases (s : State) :
    (s.sp = 0 ∧ spDec s = .error (.boundsStack (-1))) ∨
      (s.sp ≠ 0 ∧ spDec s = .ok (s.sp - 1) ∧ (s.sp - 1).toNat + 1 = s.sp.toNat) := by
  by_cases h : s.sp = 0
  · exact .inl ⟨h, if_pos h⟩
  · exact .inr ⟨h, if_neg h, by bv_omega⟩

/-- Everything SpInc can do (R140). -/
theorem spInc_cases (s : State) :
    (s.sp = 255 ∧ spInc s = .error (.boundsStack 256)) ∨
      (s.sp ≠ 255 ∧ spInc s = .ok (s.sp + 1) ∧ (s.sp + 1).toNat = s.sp.toNat + 1) := by
  by_cases h : s.sp = 255
  · exact .inl ⟨h, if_pos h⟩
  · exact .inr ⟨h, if_neg h, by bv_omega⟩

/-- Everything AdvanceSequential can do (R86). -/
theorem advanceSequential_cases (n : Nat) (s : State) :
    (s.pc.toNat + n + 1 ≤ 255 ∧ advanceSequential n s = s.setPc (lowByte (s.pc.toNat + n + 1))) ∨
      (255 < s.pc.toNat + n + 1 ∧ advanceSequential n s = takeFault (.boundsNextPc (s.pc.toNat + n + 1)) s) := by
  by_cases h : 255 < s.pc.toNat + n + 1
  · exact .inr ⟨h, if_pos h⟩
  · exact .inl ⟨by omega, if_neg h⟩

/-- AdvanceSequential changes pc and status, nothing else. -/
@[simp] theorem advanceSequential_ram (n : Nat) (s : State) : (advanceSequential n s).ram = s.ram := by
  obtain ⟨-, h⟩ | ⟨-, h⟩ := advanceSequential_cases n s <;> simp [h]

@[simp] theorem advanceSequential_x (n : Nat) (s : State) : (advanceSequential n s).x = s.x := by
  obtain ⟨-, h⟩ | ⟨-, h⟩ := advanceSequential_cases n s <;> simp [h]

@[simp] theorem advanceSequential_sp (n : Nat) (s : State) : (advanceSequential n s).sp = s.sp := by
  obtain ⟨-, h⟩ | ⟨-, h⟩ := advanceSequential_cases n s <;> simp [h]

@[simp] theorem advanceSequential_out (n : Nat) (s : State) : (advanceSequential n s).out = s.out := by
  obtain ⟨-, h⟩ | ⟨-, h⟩ := advanceSequential_cases n s <;> simp [h]

@[simp] theorem regIdx_reg (i : Fin Config.numRegs) : regIdx (.reg i) = .ok i := rfl

@[simp] theorem regIdx_illegal (v : Byte) : regIdx (.illegal v) = .error (.illegalRegister v) := rfl

/-- RegIdx of an operand byte (R89). -/
theorem regIdx_ofByte_cases (v : Byte) :
    (∃ h : v.toNat < 8, regIdx (.ofByte v) = .ok ⟨v.toNat, h⟩) ∨
      (8 ≤ v.toNat ∧ regIdx (.ofByte v) = .error (.illegalRegister v)) := by
  by_cases h : v.toNat < 8
  · exact .inl ⟨h, by simp [RegOperand.ofByte, h]⟩
  · exact .inr ⟨by omega, by simp [RegOperand.ofByte, h]⟩

/-- The ALU writes its destination register only (R120). -/
@[simp] theorem aluApply_ram (op : AluOp) (d r : Fin Config.numRegs) (s : State) : (aluApply op d r s).ram = s.ram := rfl

@[simp] theorem aluApply_pc (op : AluOp) (d r : Fin Config.numRegs) (s : State) : (aluApply op d r s).pc = s.pc := rfl

@[simp] theorem aluApply_sp (op : AluOp) (d r : Fin Config.numRegs) (s : State) : (aluApply op d r s).sp = s.sp := rfl

@[simp] theorem aluApply_status (op : AluOp) (d r : Fin Config.numRegs) (s : State) :
    (aluApply op d r s).status = s.status := rfl

@[simp] theorem aluApply_out (op : AluOp) (d r : Fin Config.numRegs) (s : State) : (aluApply op d r s).out = s.out := rfl

/-- The operand bytes that lie in the memory are fetched in order; the fetch ends at its end (R84). -/
theorem fetchOperands_one (s : State) (addr : Nat) :
    fetchOperands s 1 addr = if addr ≤ 255 then [s.ram.read addr] else [] := by
  obtain ⟨h, hr⟩ | ⟨h, hr⟩ := memRead_cases s addr (.boundsOperand addr)
  · simp [fetchOperands, hr, h]
  · simp [fetchOperands, hr, Nat.not_le.mpr h]

theorem fetchOperands_two (s : State) (addr : Nat) :
    fetchOperands s 2 addr =
      if addr ≤ 255 then s.ram.read addr :: (if addr + 1 ≤ 255 then [s.ram.read (addr + 1)] else []) else [] := by
  obtain ⟨h, hr⟩ | ⟨h, hr⟩ := memRead_cases s addr (.boundsOperand addr)
  · rw [← fetchOperands_one s (addr + 1)]
    simp [fetchOperands, hr, h]
  · simp [fetchOperands, hr, Nat.not_le.mpr h]

/-- A terminal machine has no step (R80). -/
theorem step_halted {s : State} (h : s.status = .halted) : step s = .fault .halted := by
  simp [step, h]

theorem step_faulted {s : State} {c : FaultCause} (h : s.status = .faulted c) : step s = .fault (.faulted c) := by
  simp [step, h]

/-- What a step of a running machine can do: execute the decoded instruction, or take the cause the fetch raised. -/
theorem step_running_cases {s : State} (h : s.status = .running) :
    (∃ i, fetchDecode s = .ok i ∧ step s = exec i s) ∨
      ∃ c, fetchDecode s = .error c ∧ step s = .next (takeFault c s) := by
  cases hf : fetchDecode s with
  | ok i => exact .inl ⟨i, rfl, by simp [step, h, hf]⟩
  | error c => exact .inr ⟨c, rfl, by simp [step, h, hf]⟩

end Sys2Proof.Machine
end

