-- ==== Sys2Proof/Laws/PerInstr.lean ====
section
/-! SUPPORT. Statements about each instruction as syntax, one lemma per constructor. -/

namespace Sys2Proof.Laws

/-- The length rule (spec/30_encoding.md R60, R66, R69): the first byte of an instruction's words is a
recognised opcode, and its top two bits count the bytes after it. -/
def EncodedLength.Statement (i : Instr) : Prop :=
  ∃ op rest, encode i = op :: rest ∧ lookupOpcode op = some i.kind ∧ operandCount op = i.kind.arity ∧
    rest.length = i.kind.arity

namespace EncodedLength

theorem hlt : Statement .hlt := ⟨_, _, rfl, rfl, rfl, rfl⟩

theorem ldi (a : RegOperand) (b : Byte) : Statement (.ldi a b) := ⟨_, _, rfl, rfl, rfl, rfl⟩

theorem prn (a : RegOperand) : Statement (.prn a) := ⟨_, _, rfl, rfl, rfl, rfl⟩

theorem mul (a b : RegOperand) : Statement (.mul a b) := ⟨_, _, rfl, rfl, rfl, rfl⟩

theorem add (a b : RegOperand) : Statement (.add a b) := ⟨_, _, rfl, rfl, rfl, rfl⟩

theorem push (a : RegOperand) : Statement (.push a) := ⟨_, _, rfl, rfl, rfl, rfl⟩

theorem pop (a : RegOperand) : Statement (.pop a) := ⟨_, _, rfl, rfl, rfl, rfl⟩

theorem call (a : RegOperand) : Statement (.call a) := ⟨_, _, rfl, rfl, rfl, rfl⟩

theorem ret : Statement .ret := ⟨_, _, rfl, rfl, rfl, rfl⟩

theorem jmp (a : RegOperand) : Statement (.jmp a) := ⟨_, _, rfl, rfl, rfl, rfl⟩

end EncodedLength

end Sys2Proof.Laws
end

