-- ==== Sys2Proof/Machine/Assembler.lean ====
section
/-! DEFINITION. The assembler spelling of an instruction (spec/30_encoding.md R70), in which test programs are
written. It lies outside the machine: nothing of the step uses it. -/

namespace Sys2Proof.Machine

/-- The assembler spelling of a register operand; an index above 7 cannot be spelled (spec/30_encoding.md R70). -/
def asmReg : RegOperand → Option (List Char)
  | .reg i => some ('R' :: Nat.toDigits 10 i.val)
  | .illegal _ => none

/-- A mnemonic and one register. -/
def asmOne (name : List Char) (a : RegOperand) : Option (List Char) :=
  (asmReg a).map (fun ra => name ++ [' '] ++ ra)

/-- A mnemonic, a register and a second operand already spelled. -/
def asmTwo (name : List Char) (a : RegOperand) (second : Option (List Char)) : Option (List Char) :=
  match asmReg a, second with
  | some ra, some rb => some (name ++ [' '] ++ ra ++ [',', ' '] ++ rb)
  | _, _ => none

/-- The assembler spelling of an instruction, with a decimal immediate (R70). -/
def asm : Instr → Option (List Char)
  | .hlt => some ['H', 'L', 'T']
  | .ldi a b => asmTwo ['L', 'D', 'I'] a (some (Nat.toDigits 10 b.toNat))
  | .prn a => asmOne ['P', 'R', 'N'] a
  | .mul a b => asmTwo ['M', 'U', 'L'] a (asmReg b)
  | .add a b => asmTwo ['A', 'D', 'D'] a (asmReg b)
  | .push a => asmOne ['P', 'U', 'S', 'H'] a
  | .pop a => asmOne ['P', 'O', 'P'] a
  | .call a => asmOne ['C', 'A', 'L', 'L'] a
  | .ret => some ['R', 'E', 'T']
  | .jmp a => asmOne ['J', 'M', 'P'] a

end Sys2Proof.Machine
end

