-- ==== Sys2Proof/Tests/Slice0.lean ====
section
/-! SUPPORT. Small tests: the well-formedness smoke test, decoding of words written out from spec/30_encoding.md R62 and
R65, single steps with expected results from spec/95_test_vectors.md (each cites its vector), and a witness for the
hypotheses of every statement that has some. -/

namespace Sys2Proof.Tests

open Sys2Proof.Machine

/-- A running state with the given pc and sp, registers R0 = 200, R1 = 100, R2 = 5, R7 = 0x2A, and bytes placed at the pc. -/
def machineAt (pc sp : Byte) (bytes : List Byte) : State :=
  { State.reset with pc := pc, sp := sp, x := #v[200, 100, 5, 0, 0, 0, 0, 0x2A], ram := placeBytes ⟨[]⟩ pc.toNat bytes }

/-- The state a step leads to; the state itself where there is none. -/
def after (s : State) : State :=
  match step s with
  | .next t => t
  | .fault _ => s
  | .refused _ => s

/-- The state an instruction leads to. -/
def afterExec (i : Instr) (s : State) : State :=
  match exec i s with
  | .next t => t
  | .fault _ => s
  | .refused _ => s

/-! ## Well-formedness: each check refuses an ill-formed term -/

theorem test_ldi_a_ill_formed : (Instr.ldi (.illegal 7) 0).wellFormed = false := by decide
theorem test_prn_a_ill_formed : (Instr.prn (.illegal 0)).wellFormed = false := by decide
theorem test_mul_a_ill_formed : (Instr.mul (.illegal 7) (.reg 0)).wellFormed = false := by decide
theorem test_mul_b_ill_formed : (Instr.mul (.reg 0) (.illegal 7)).wellFormed = false := by decide
theorem test_add_a_ill_formed : (Instr.add (.illegal 3) (.reg 0)).wellFormed = false := by decide
theorem test_add_b_ill_formed : (Instr.add (.reg 0) (.illegal 3)).wellFormed = false := by decide
theorem test_push_a_ill_formed : (Instr.push (.illegal 7)).wellFormed = false := by decide
theorem test_pop_a_ill_formed : (Instr.pop (.illegal 1)).wellFormed = false := by decide
theorem test_call_a_ill_formed : (Instr.call (.illegal 7)).wellFormed = false := by decide
theorem test_jmp_a_ill_formed : (Instr.jmp (.illegal 7)).wellFormed = false := by decide

/-! ## Decoding: words written out bit by bit from R65 (opcode), R62 (operand bytes) -/

theorem test_decode_hlt : decode [0b00000001] = .ok .hlt [] := by decide
theorem test_decode_ldi : decode [0b10000010, 0b00000101, 0b11111111] = .ok (.ldi (.reg 5) 255) [] := by decide
theorem test_decode_prn : decode [0b01000111, 0b00000111] = .ok (.prn (.reg 7)) [] := by decide
theorem test_decode_mul : decode [0b10100010, 0b00000010, 0b00000011] = .ok (.mul (.reg 2) (.reg 3)) [] := by decide
theorem test_decode_add : decode [0b10100000, 0b00000110, 0b00001001] = .ok (.add (.reg 6) (.illegal 9)) [] := by decide
theorem test_decode_push : decode [0b01000101, 0b00000100, 0x11] = .ok (.push (.reg 4)) [0x11] := by decide
theorem test_decode_pop : decode [0b01000110, 0b11111111] = .ok (.pop (.illegal 255)) [] := by decide
theorem test_decode_call : decode [0b01010000, 0b00000001] = .ok (.call (.reg 1)) [] := by decide
theorem test_decode_ret : decode [0b00010001] = .ok .ret [] := by decide
theorem test_decode_jmp : decode [0b01010100, 0b00000000] = .ok (.jmp (.reg 0)) [] := by decide
/-- R68: 0x00 and 0xFF are illegal, whatever follows. -/
theorem test_decode_illegal : decode [0x00, 1, 2] = .illegalOpcode 0x00 ∧ decode [0xFF] = .illegalOpcode 0xFF := by decide
/-- R84: the first missing operand is named. -/
theorem test_decode_missing :
    decode [0x82] = .missingOperand 1 ∧ decode [0x82, 0] = .missingOperand 2 ∧ decode [0x54] = .missingOperand 1 ∧
      decode [] = .noBytes := by decide
/-- The table's numbering: the second byte is bits 15..8, the third bits 23..16. -/
theorem test_table_word : decodeTableWord 24 0xFF0582 = some (.ldi (.reg 5) 0xFF) ∧ decodeTableWord 8 0xFF0547 = some (.prn (.reg 0)) ∧
    decodeTableWord 8 0x00 = none := by decide
/-- The first step after reset runs the placed word. -/
theorem test_fetch_word : (after (State.reset.withFetchWord 24 0xFF0582)).x = #v[0, 0, 0, 0, 0, 0xFF, 0, 0] := by decide

/-! ## Single steps, from spec/95_test_vectors.md -/

/-- V7. -/
theorem test_hlt_at_255 : (after (machineAt 0xFF 0xF4 [0x01])).status = .halted ∧ (after (machineAt 0xFF 0xF4 [0x01])).pc = 0xFF := by
  decide
/-- L2: LDI R7 does not move sp. -/
theorem test_ldi_r7 : (after (machineAt 0 0xF4 [0x82, 0x07, 0x00])).reg 7 = 0 ∧ (after (machineAt 0 0xF4 [0x82, 0x07, 0x00])).sp = 0xF4 := by
  decide
/-- L4: the effect is kept, the pc is not moved. -/
theorem test_ldi_at_253 : let t := after (machineAt 0xFD 0xF4 [0x82, 0x01, 0x2A])
    t.reg 1 = 0x2A ∧ t.status = .faulted (.boundsNextPc 256) ∧ t.pc = 0xFD := by decide
/-- L5, with R7 = 0x2A. -/
theorem test_prn : (after (machineAt 0 0xF4 [0x47, 0x07])).out = [42] ∧ (after (machineAt 0 0xF4 [0x47, 0x07])).pc = 2 := by decide
/-- L6: a faulted PRN emits nothing. -/
theorem test_prn_illegal : let t := after (machineAt 0 0xF4 [0x47, 0xFF])
    t.out = [] ∧ t.status = .faulted (.illegalRegister 0xFF) := by decide
/-- 200 * 100 = 20000 = 78 * 256 + 32 (R124). -/
theorem test_mul_wraps : (after (machineAt 0 0xF4 [0xA2, 0x00, 0x01])).reg 0 = 32 ∧ (after (machineAt 0 0xF4 [0xA2, 0x00, 0x01])).reg 1 = 100 := by
  decide
/-- A13: operand a is checked first. -/
theorem test_mul_order : (after (machineAt 0 0xF4 [0xA2, 0x08, 0x09])).status = .faulted (.illegalRegister 8) := by decide
/-- A1: 200 + 100 = 300, 44 after wrap. -/
theorem test_add_wraps : (after (machineAt 0 0xF4 [0xA0, 0x00, 0x01])).reg 0 = 44 ∧ (after (machineAt 0 0xF4 [0xA0, 0x00, 0x01])).pc = 3 := by
  decide
/-- The source is the destination: 200 + 200 = 400, 144 after wrap (R123). -/
theorem test_add_same : (after (machineAt 0 0xF4 [0xA0, 0x00, 0x00])).reg 0 = 144 := by decide
/-- S1, with R7 = 0x2A. -/
theorem test_push : let t := after (machineAt 0 0xF4 [0x45, 0x07])
    t.sp = 0xF3 ∧ t.ram.read 0xF3 = 0x2A ∧ t.pc = 2 := by decide
/-- S8: the stack bound is checked before the register. -/
theorem test_push_order : (after (machineAt 2 0x00 [0x45, 0x08])).status = .faulted (.boundsStack (-1)) := by decide
/-- S2, at the top of the stack region: the popped byte stays in memory. -/
theorem test_pop : let t := after { machineAt 0 0xF3 [0x46, 0x01] with ram := (machineAt 0 0xF3 [0x46, 0x01]).ram.write 0xF3 0x2A }
    t.reg 1 = 0x2A ∧ t.sp = 0xF4 ∧ t.ram.read 0xF3 = 0x2A := by decide
/-- S9: underflow is checked before the register. -/
theorem test_pop_order : (after (machineAt 0 0xF4 [0x46, 0x08])).status = .faulted (.stackUnderflow 0xF4) := by decide
/-- K1, with R1 = 100. -/
theorem test_call : let t := after (machineAt 6 0xF4 [0x50, 0x01])
    t.sp = 0xF3 ∧ t.ram.read 0xF3 = 8 ∧ t.pc = 100 := by decide
/-- K6: nothing is committed. -/
theorem test_call_at_254 : let t := after (machineAt 0xFE 0xF4 [0x50, 0x00])
    t.status = .faulted (.boundsNextPc 256) ∧ t.sp = 0xF4 ∧ t.ram.read 0xF3 = 0 := by decide
/-- K3: RET on an empty stack faults nothing. -/
theorem test_ret_empty : let t := after (machineAt 5 0xF4 [0x11])
    t.pc = 0 ∧ t.sp = 0xF5 ∧ t.status = .running := by decide
/-- K4. -/
theorem test_ret_at_255 : let t := after (machineAt 5 0xFF [0x11])
    t.pc = 5 ∧ t.sp = 0xFF ∧ t.status = .faulted (.boundsStack 256) := by decide
/-- K9: no pc + 2 is computed. -/
theorem test_jmp_at_254 : (after (machineAt 0xFE 0xF4 [0x54, 0x01])).pc = 100 := by decide
/-- V3, V4, V5: recognition comes before operand fetch; operand a's address before operand b's. -/
theorem test_fetch_faults : (after (machineAt 0xFF 0xF4 [0xAB])).status = .faulted (.illegalOpcode 0xAB) ∧
    (after (machineAt 0xFF 0xF4 [0x82])).status = .faulted (.boundsOperand 256) ∧
    (after (machineAt 0xFE 0xF4 [0x82, 0x00])).status = .faulted (.boundsOperand 256) := by decide
/-- R216: a PUSH onto its own operand byte uses the operand fetched before the store. -/
theorem test_push_own_operand : (after (machineAt 4 6 [0x45, 0x07])).ram.read 5 = 0x2A := by decide
/-- R196, R70: decimal digits, and the spelling of an instruction. -/
theorem test_render : renderByte 44 = ['4', '4'] ∧ renderByte 0 = ['0'] ∧
    asm (.ldi (.reg 0) 8) = some ['L', 'D', 'I', ' ', 'R', '0', ',', ' ', '8'] ∧ asm (.prn (.illegal 8)) = none := by decide
/-- P1's image loads, and a value of 256 does not (R211). -/
theorem test_load : ((loadImage [0x82, 0, 8, 0x47, 0, 1]).map (fun s => (s.ram.read 3, s.ram.read 6, s.sp))) = some (0x47, 0, 0xF4) ∧
    (loadImage [256]).isNone = true := by decide
/-- R211: 256 bytes are accepted, 257 are not. -/
theorem test_load_length : (loadImage (List.replicate 256 7)).isSome = true ∧ (loadImage (List.replicate 257 0)).isSome = false := by
  rw [loadImage_isSome, loadImage_isSome, imageOk_replicate, imageOk_replicate]
  decide
/-- R92: a running machine has no result yet; a halted one has its whole state. -/
theorem test_observe : observe State.reset = none ∧ (observe (after (machineAt 7 0xF4 [0x01]))).map (fun o => (o.status, o.pc)) = some (.halted, 7) := by
  decide

/-! ## Witnesses: states and operands that meet all hypotheses of a statement together, at the ends of each clause -/

/-- The bytes of an instruction at every pc where its clauses meet, with register operands at 0, 7, 8 and 255. -/
def edgePcs : List Byte := [0, 252, 253, 254, 255]

def edgeOperands : List Byte := [0, 7, 8, 255]

/-- The hypotheses of a step rule hold at every edge. -/
def edgesMeet (op : Byte) : Bool :=
  edgePcs.all fun pc => edgeOperands.all fun a =>
    let s := machineAt pc 0 [op, a, a]
    decide (s.status = .running ∧ s.byteAtPc 0 = op)

theorem witness_LoaderPlacesTheImageFromAddressZero :
    loadImage [] = some State.reset ∧ (loadImage (List.replicate 256 0xFF)).isSome = true ∧ (256 < (List.replicate 257 0).length) ∧
      ∃ v ∈ [0, 256], 255 < v :=
  ⟨rfl, by rw [loadImage_isSome, imageOk_replicate]; decide, by simp only [List.length_replicate]; decide, by decide⟩

theorem witness_StepKeepsTheInvariant :
    (machineAt 0 1 [0x45, 7]).Inv ∧ step (machineAt 0 1 [0x45, 7]) = .next (after (machineAt 0 1 [0x45, 7])) :=
  ⟨⟨by decide, by decide⟩, rfl⟩

theorem witness_DecodeOfEncodeIsTheInstruction :
    (Instr.mul (.reg 7) (.illegal 8)).WellFormed ∧ (Instr.jmp (.illegal 255)).WellFormed ∧ Instr.ret.WellFormed := by decide

theorem witness_DecodedBytesAreTheEncodedWords :
    decode [0x82, 8, 255, 1] = .ok (.ldi (.illegal 8) 255) [1] ∧ decode [0x54, 7] = .ok (.jmp (.reg 7)) [] := by decide

theorem witness_EveryOtherOpcodeByteIsIllegal :
    (machineAt 255 0 [0xC0]).status = .running ∧ lookupOpcode ((machineAt 255 0 [0xC0]).byteAtPc 0) = none ∧
      0xC0 ≤ (0xC0 : Byte).toNat := by decide

theorem witness_TopBitsGiveTheOperandCount : lookupOpcode 0x54 = some .jmp ∧ 0xC0 ≤ (0xFF : Byte).toNat := by decide

theorem witness_StepExistsExactlyWhenRunning : (after (machineAt 0 0 [0x01])).status ≠ .running := by decide

theorem witness_TerminalMachineAnswersItsStatusAsFault :
    (after (machineAt 0 0 [0x01])).status = .halted ∧ (after (machineAt 0 0 [0x00])).status = .faulted (.illegalOpcode 0) := by
  decide

theorem witness_StepRunsTheDecodedInstruction :
    (machineAt 253 0 [0x82, 1, 2]).status = .running ∧
      decode (bytesFrom (machineAt 253 0 [0x82, 1, 2]).ram 253) = .ok (.ldi (.reg 1) 2) [] ∧
      decode (bytesFrom (machineAt 255 0 [0x11]).ram 255) = .ok .ret [] := by decide

theorem witness_PlacedTableWordIsTheNextInstruction :
    (machineAt 253 0 []).ram.wf = true ∧ (machineAt 254 0 []).ram.wf = true ∧ (machineAt 255 0 []).ram.wf = true ∧
      decodeTableWord 24 0x0108A2 = some (.mul (.illegal 8) (.reg 1)) ∧
      (machineAt 253 0 []).pc.toNat + (Instr.mul (.illegal 8) (.reg 1)).kind.arity ≤ 255 ∧
      decodeTableWord 16 0x0747 = some (.prn (.reg 7)) ∧
      (machineAt 254 0 []).pc.toNat + (Instr.prn (.reg 7)).kind.arity ≤ 255 ∧
      decodeTableWord 8 0x11 = some .ret ∧ (machineAt 255 0 []).pc.toNat + Instr.ret.kind.arity ≤ 255 := by decide

theorem witness_HltStepFollowsItsRule : edgesMeet 0x01 = true := by decide
theorem witness_LdiStepFollowsItsRule : edgesMeet 0x82 = true := by decide
theorem witness_PrnStepFollowsItsRule : edgesMeet 0x47 = true := by decide
theorem witness_MulStepFollowsItsRule : edgesMeet 0xA2 = true := by decide
theorem witness_AddStepFollowsItsRule : edgesMeet 0xA0 = true := by decide
theorem witness_PushStepFollowsItsRule : edgesMeet 0x45 = true := by decide
theorem witness_PopStepFollowsItsRule : edgesMeet 0x46 = true := by decide
theorem witness_CallStepFollowsItsRule : edgesMeet 0x50 = true := by decide
theorem witness_RetStepFollowsItsRule : edgesMeet 0x11 = true := by decide
theorem witness_JmpStepFollowsItsRule : edgesMeet 0x54 = true := by decide

theorem witness_RegisterInstructionsComplete :
    (machineAt 252 0 []).pc.toNat ≤ 252 ∧ (machineAt 253 0 []).pc.toNat ≤ 253 := by decide

theorem witness_StackInstructionsComplete :
    ((machineAt 253 1 []).pc.toNat ≤ 253 ∧ 1 ≤ (machineAt 253 1 []).sp.toNat) ∧
      ((machineAt 253 0xF3 []).pc.toNat ≤ 253 ∧ (machineAt 253 0xF3 []).sp.toNat ≤ 0xF3) := by decide

theorem witness_ControlTransfersComplete :
    ((machineAt 253 1 []).pc.toNat ≤ 253 ∧ 1 ≤ (machineAt 253 1 []).sp.toNat) ∧ (machineAt 0 254 []).sp.toNat ≤ 254 := by decide

theorem witness_SequentialAdvanceKeepsEffectsAtTheEnd :
    (machineAt 252 0 []).pc.toNat + 2 + 1 ≤ 255 ∧ 255 < (machineAt 253 0 []).pc.toNat + 2 + 1 ∧
      1 ≤ (machineAt 254 1 []).sp.toNat ∧ (machineAt 254 0xF3 []).sp.toNat ≤ 0xF3 := by decide

/-- A running state, a step from it, and the cause its status then records. -/
theorem witness_IllegalOpcodeRaisedExactlyForUnknownBytes :
    let s := machineAt 255 0 [0xC0]
    s.status = .running ∧ step s = .next (after s) ∧ (after s).status = .faulted (.illegalOpcode 0xC0) :=
  ⟨rfl, rfl, by decide⟩

theorem witness_StackUnderflowRaisedExactlyByPop :
    let s := machineAt 254 0xF4 [0x46, 8]
    s.status = .running ∧ step s = .next (after s) ∧ (after s).status = .faulted (.stackUnderflow 0xF4) :=
  ⟨rfl, rfl, by decide⟩

theorem witness_BoundsOperandRaisedExactlyAtTheEndOfMemory :
    let s := machineAt 255 0 [0x45]
    let u := machineAt 254 0 [0xA0, 8]
    s.status = .running ∧ step s = .next (after s) ∧ (after s).status = .faulted (.boundsOperand 256) ∧
      u.status = .running ∧ step u = .next (after u) ∧ (after u).status = .faulted (.boundsOperand 256) :=
  ⟨rfl, rfl, by decide, rfl, rfl, by decide⟩

theorem witness_BoundsStackRaisedExactlyAtTheEndsOfTheStack :
    let s := machineAt 254 0 [0x50, 8]
    let u := machineAt 255 255 [0x11]
    s.status = .running ∧ step s = .next (after s) ∧ (after s).status = .faulted (.boundsStack (-1)) ∧
      u.status = .running ∧ step u = .next (after u) ∧ (after u).status = .faulted (.boundsStack 256) :=
  ⟨rfl, rfl, by decide, rfl, rfl, by decide⟩

theorem witness_BoundsNextPcRaisedExactlyPastTheEnd :
    ([machineAt 253 0 [0x82, 7, 0], machineAt 253 0 [0xA2, 7, 7], machineAt 254 0 [0x47, 7], machineAt 254 1 [0x45, 7],
      machineAt 254 0xF3 [0x46, 7], machineAt 254 1 [0x50, 8]].all fun s =>
        decide (s.status = .running ∧ (after s).status = .faulted (.boundsNextPc 256))) = true ∧
      step (machineAt 254 1 [0x50, 8]) = .next (after (machineAt 254 1 [0x50, 8])) :=
  ⟨by decide, rfl⟩

theorem witness_IllegalRegisterRaisedExactlyWhereUsed :
    ([machineAt 253 0 [0x82, 8, 0], machineAt 254 0 [0x54, 8], machineAt 254 1 [0x45, 8], machineAt 254 0xF3 [0x46, 8],
      machineAt 253 1 [0x50, 8], machineAt 253 0 [0xA2, 7, 8]].all fun s =>
        decide (s.status = .running ∧ (after s).status = .faulted (.illegalRegister 8))) = true ∧
      step (machineAt 253 1 [0x50, 8]) = .next (after (machineAt 253 1 [0x50, 8])) :=
  ⟨by decide, rfl⟩

theorem witness_AluUnsupportedIsUnreachable :
    let s := machineAt 0 0 [0xA2, 0, 1]
    s.status = .running ∧ step s = .next (after s) :=
  ⟨rfl, rfl⟩

theorem witness_FirstFailingCheckIsTheStatus :
    (machineAt 254 0 [0x45, 8]).status = .running ∧ firstFault (machineAt 254 0 [0x45, 8]) = some (.boundsStack (-1)) ∧
      firstFault (machineAt 254 0 [0x54, 7]) = none := by decide

theorem witness_FaultsChangeOnlyTheStatus :
    let s := machineAt 254 0xF4 [0x45, 7]
    let u := machineAt 254 1 [0x50, 7]
    s.status = .running ∧ step s = .next (after s) ∧ (after s).status = .faulted (.boundsNextPc 256) ∧
      isSequential (s.byteAtPc 0) = true ∧
      u.status = .running ∧ step u = .next (after u) ∧ (after u).status = .faulted (.boundsNextPc 256) ∧
      isSequential (u.byteAtPc 0) = false :=
  ⟨rfl, rfl, by decide, by decide, rfl, rfl, by decide, by decide⟩

theorem witness_RegisterWritersFrame :
    let s := machineAt 253 0 []
    exec (.ldi (.reg 7) 0) s = .next (afterExec (.ldi (.reg 7) 0) s) ∧
      exec (.mul (.reg 0) (.reg 1)) s = .next (afterExec (.mul (.reg 0) (.reg 1)) s) ∧
      exec (.add (.reg 0) (.illegal 8)) s = .next (afterExec (.add (.reg 0) (.illegal 8)) s) ∧
      RegOperand.reg 0 ≠ .reg 7 :=
  ⟨rfl, rfl, rfl, by decide⟩

theorem witness_PrintFrame :
    let s := machineAt 254 0 []
    exec (.prn (.reg 7)) s = .next (afterExec (.prn (.reg 7)) s) := rfl

theorem witness_PopFrame :
    let s := machineAt 0 0xF3 []
    exec (.pop (.reg 7)) s = .next (afterExec (.pop (.reg 7)) s) ∧ RegOperand.reg 7 ≠ .reg 0 :=
  ⟨rfl, by decide⟩

theorem witness_PushAndCallStoreOneByte :
    let s := machineAt 0 1 []
    let u := machineAt 0 0 []
    exec (.push (.reg 7)) s = .next (afterExec (.push (.reg 7)) s) ∧ spDec s = .ok 0 ∧ 1 ≠ (0 : Byte).toNat ∧
      exec (.call (.reg 7)) u = .next (afterExec (.call (.reg 7)) u) ∧ spDec u = .error (.boundsStack (-1)) :=
  ⟨rfl, rfl, by decide, rfl, rfl⟩

theorem witness_HaltReturnAndJumpFrame :
    let s := machineAt 255 254 []
    exec .hlt s = .next (afterExec .hlt s) ∧ exec .ret s = .next (afterExec .ret s) ∧
      exec (.jmp (.reg 1)) s = .next (afterExec (.jmp (.reg 1)) s) ∧ Instr.ret ≠ .hlt :=
  ⟨rfl, rfl, rfl, by decide⟩

theorem witness_OnlyTheNamedInstructionsChangeEachPart :
    let s := machineAt 0 0xF4 [0x45, 7]
    let u := machineAt 0 0xF4 [0xA0, 0, 1]
    let v := machineAt 0 0xF4 [0x47, 7]
    step s = .next (after s) ∧ (after s).sp ≠ s.sp ∧ (after s).ram ≠ s.ram ∧
      step u = .next (after u) ∧ (after u).x ≠ u.x ∧ step v = .next (after v) ∧ (after v).out ≠ v.out :=
  ⟨rfl, by decide, by decide, rfl, by decide, rfl, by decide⟩

theorem witness_StepStoresOnlyBelowTheStackPointer :
    let s := machineAt 6 1 [0x50, 1]
    step s = .next (after s) ∧ (after s).ram.read 0 ≠ s.ram.read 0 :=
  ⟨rfl, by decide⟩

/-- Canonical memories that differ at an address the step does not read: a POP, and a PUSH whose store lands there. -/
theorem witness_StepReadsOnlyTheNamedCells :
    let s := machineAt 0 0xF3 [0x46, 7]
    let m := s.ram.write 3 0xFF
    let p := machineAt 0 0xF4 [0x45, 7]
    let n := p.ram.write 0xF3 0xFF
    (step s = .next (after s) ∧ m ≠ s.ram ∧ s.ram.wf = true ∧ m.wf = true ∧
      ∀ addr, addr ≤ 255 → addr = s.pc.toNat ∨ addr = s.pc.toNat + 1 ∨ addr = s.pc.toNat + 2 ∨ addr = s.sp.toNat →
        m.read addr = s.ram.read addr) ∧
    (step p = .next (after p) ∧ n ≠ p.ram ∧ p.ram.wf = true ∧ n.wf = true ∧
      ∀ addr, addr ≤ 255 → addr = p.pc.toNat ∨ addr = p.pc.toNat + 1 ∨ addr = p.pc.toNat + 2 ∨ addr = p.sp.toNat →
        n.read addr = p.ram.read addr) := by
  refine ⟨⟨rfl, by decide, by decide, by decide, ?_⟩, rfl, by decide, by decide, by decide, ?_⟩ <;>
    (rintro addr - (rfl | rfl | rfl | rfl) <;> decide)

theorem witness_OutputOnlyGrowsAndIsNeverReadBack :
    let s := machineAt 0 0 [0x47, 7]
    step s = .next (after s) := rfl

theorem witness_PushThenPopCopiesTheRegister :
    let s := machineAt 251 0xF4 [0x45, 7, 0x46, 1]
    let t := after s
    s.ram.wf = true ∧ s.sp.toNat ≤ 0xF4 ∧ s.status = .running ∧ step s = .next t ∧ t.status = .running ∧
      s.byteAtPc 0 = 0x45 ∧ (s.byteAtPc 1).toNat = 7 ∧ t.byteAtPc 0 = 0x46 ∧ (t.byteAtPc 1).toNat = 1 ∧ t.pc.toNat ≤ 253 :=
  ⟨by decide, by decide, rfl, rfl, by decide, by decide, by decide, by decide, by decide, by decide⟩

theorem witness_ReturnGoesToTheInstructionAfterTheCall :
    let s := machineAt 253 1 [0x50, 1]
    let t := after s
    let u := { t with pc := 9, ram := t.ram.write 9 0x11 }
    s.ram.wf = true ∧ s.status = .running ∧ s.byteAtPc 0 = 0x50 ∧ step s = .next t ∧ t.status = .running ∧
      u.status = .running ∧ u.byteAtPc 0 = 0x11 ∧ u.sp = t.sp ∧ u.ram.read u.sp.toNat = t.ram.read t.sp.toNat :=
  ⟨by decide, rfl, by decide, rfl, by decide, by decide, by decide, rfl, by decide⟩

/-- P8's way: R1 = 1 is pushed, then fetched as HLT; and R1 = 0 is pushed, then fetched as an illegal opcode. -/
theorem witness_PushedByteIsFetchedAsCode :
    let s := (machineAt 6 0xF4 []).setReg 1 0x01
    let s' := (machineAt 254 1 []).setReg 1 0x00
    let t := afterExec (.push (.reg 1)) s
    let t' := afterExec (.push (.reg 1)) s'
    s.ram.wf = true ∧ 1 ≤ s.sp.toNat ∧ exec (.push (.reg 1)) s = .next t ∧ ({ t with pc := t.sp } : State).status = .running ∧
      s.reg 1 = 0x01 ∧ s'.ram.wf = true ∧ 1 ≤ s'.sp.toNat ∧ exec (.push (.reg 1)) s' = .next t' ∧
      ({ t' with pc := t'.sp, status := .running } : State).status = .running ∧ lookupOpcode (s'.reg 1) = none :=
  ⟨by decide, by decide, rfl, by decide, by decide, by decide, by decide, rfl, rfl, by decide⟩

theorem witness_AddAndMulCommuteInTheirValues : (1 : Fin 8) ≠ 0 := by decide

theorem witness_RegisterOperandIsTheWholeByte :
    (0 : Byte).toNat ≤ 7 ∧ (7 : Byte).toNat ≤ 7 ∧ 7 < (8 : Byte).toNat ∧ 7 < (255 : Byte).toNat := by decide

theorem witness_ResetGivesEveryPartItsValue : (255 : Nat) ≤ 255 := by decide

theorem witness_MemoryReturnsTheByteLastWritten :
    (machineAt 0 0 [0x01]).ram.wf = true ∧ (255 : Nat) ≤ 255 ∧ 255 < (256 : Nat) := by decide

/-- The same cells written in another order. -/
theorem witness_CanonicalMemoriesThatReadAlikeAreEqual :
    let m := ((⟨[]⟩ : Memory).write 3 1).write 255 2
    let m' := ((⟨[]⟩ : Memory).write 255 2).write 3 1
    m.wf = true ∧ m'.wf = true ∧ ∀ addr, addr ≤ 255 → m.read addr = m'.read addr :=
  ⟨by decide, by decide, fun _ _ => rfl⟩

end Sys2Proof.Tests
end

/-! PROOFS. The decode ROM (spec/30_encoding.md R65 to R68): which bytes it recognises, what the top two bits of a
recognised byte say, and what a machine does at a byte that is none of them. -/

namespace Sys2Proof

/-! ## The decode ROM -/

/-- The ROM recognises the opcode byte of every operation kind. -/
@[simp] theorem lookupOpcode_opcodeOf (k : OpKind) : lookupOpcode (opcodeOf k) = some k := by
  cases k <;> rfl

/-- Every row of the ROM is an operation kind beside its own opcode byte. -/
theorem opcodeOf_of_mem_decodeRom {op : Byte} {k : OpKind} (h : (op, k) ∈ decodeRom) : op = opcodeOf k := by
  simp only [decodeRom, List.mem_cons, List.not_mem_nil, or_false, Prod.mk.injEq] at h
  rcases h with ⟨rfl, rfl⟩ | ⟨rfl, rfl⟩ | ⟨rfl, rfl⟩ | ⟨rfl, rfl⟩ | ⟨rfl, rfl⟩ |
    ⟨rfl, rfl⟩ | ⟨rfl, rfl⟩ | ⟨rfl, rfl⟩ | ⟨rfl, rfl⟩ | ⟨rfl, rfl⟩ <;> rfl

/-- The ROM and the opcode bytes are inverse to each other: each operation kind has exactly one byte (R65, R68). -/
theorem lookupOpcode_eq_some_iff {op : Byte} {k : OpKind} : lookupOpcode op = some k ↔ op = opcodeOf k := by
  constructor
  · intro h
    obtain ⟨⟨op', k'⟩, hfind, rfl⟩ := Option.map_eq_some_iff.mp h
    have hop : op' = op := by simpa using List.find?_some hfind
    exact hop ▸ opcodeOf_of_mem_decodeRom (List.mem_of_find?_eq_some hfind)
  · rintro rfl
    exact lookupOpcode_opcodeOf k

/-- The ROM rejects exactly the bytes that stand in none of its rows. -/
theorem lookupOpcode_eq_none_iff {op : Byte} : lookupOpcode op = none ↔ op ∉ decodeRom.map Prod.fst := by
  simp only [lookupOpcode, Option.map_eq_none_iff, List.find?_eq_none, beq_iff_eq, List.mem_map, not_exists, not_and]

/-! ## Counting the bytes -/

@[simp] theorem lowByte_toNat (b : Byte) : lowByte b.toNat = b := by simp [lowByte]

theorem toNat_lowByte {n : Nat} (h : n < 256) : (lowByte n).toNat = n := Nat.mod_eq_of_lt h

/-- The recognised numbers below 256 are the ROM's bytes, in another order. -/
theorem recognised_perm_decodeRom :
    ((List.range 256).filter (fun n => !(lookupOpcode (lowByte n)).isNone)).Perm
      ((decodeRom.map Prod.fst).map BitVec.toNat) := by
  refine (List.perm_ext_iff_of_nodup (List.nodup_range.filter _) (by decide)).mpr fun n => ?_
  have hmem (op : Byte) : (!(lookupOpcode op).isNone) = true ↔ op ∈ decodeRom.map Prod.fst := by
    rw [Bool.not_eq_true', ← Bool.not_eq_true, Option.isNone_iff_eq_none, lookupOpcode_eq_none_iff, not_not]
  rw [List.mem_filter, List.mem_range, hmem, List.mem_map (f := BitVec.toNat)]
  constructor
  · rintro ⟨hn, hop⟩
    exact ⟨lowByte n, hop, toNat_lowByte hn⟩
  · rintro ⟨op, hop, rfl⟩
    exact ⟨op.isLt, (lowByte_toNat op).symm ▸ hop⟩

/-- Ten bytes are recognised, so 246 of the 256 are not (R68). -/
theorem length_unrecognised :
    ((List.range 256).filter (fun n => (lookupOpcode (lowByte n)).isNone)).length = 246 := by
  have hten := recognised_perm_decodeRom.length_eq
  have hsplit := List.length_eq_length_filter_add (l := List.range 256) (fun n => (lookupOpcode (lowByte n)).isNone)
  rw [hten, List.length_range] at hsplit
  exact Nat.add_right_cancel hsplit.symm

/-! ## The operand count -/

/-- Shifting the top two bits down is division by 64 (R60). -/
theorem operandCount_eq_div (op : Byte) : operandCount op = op.toNat / 64 := by
  simp [operandCount, Nat.shiftRight_eq_div_pow]

/-- The top two bits of an operation's opcode byte are its operand count (R66). -/
@[simp] theorem operandCount_opcodeOf (k : OpKind) : operandCount (opcodeOf k) = k.arity := by
  cases k <;> rfl

theorem operandCount_of_lookupOpcode {op : Byte} {k : OpKind} (h : lookupOpcode op = some k) :
    operandCount op = k.arity := by
  rw [lookupOpcode_eq_some_iff.mp h, operandCount_opcodeOf]

theorem OpKind.arity_le_two (k : OpKind) : k.arity ≤ 2 := by
  cases k <;> decide

/-- Top bits 0b11 would mean three operands, which no operation has (R66, R69). -/
theorem lookupOpcode_eq_none_of_topBits {op : Byte} (h : 0xC0 ≤ op.toNat) : lookupOpcode op = none := by
  cases hk : lookupOpcode op with
  | none => rfl
  | some k =>
    have hcount := operandCount_of_lookupOpcode hk
    rw [operandCount_eq_div] at hcount
    have := k.arity_le_two
    omega

/-! ## An unrecognised byte, decoded and executed -/

/-- Recognition comes first, whatever bytes follow (R83). -/
theorem decodeOp_of_lookupOpcode_eq_none {op : Byte} (bytes : List Byte) (h : lookupOpcode op = none) :
    decodeOp op bytes = .illegalOpcode op := by
  simp [decodeOp, h]

end Sys2Proof

namespace Sys2Proof.Machine

theorem State.byteAtPc_zero (s : State) : s.byteAtPc 0 = s.ram.read s.pc.toNat := rfl

/-- The fetch of an unrecognised opcode byte raises ILLEGAL_OPCODE with that byte (R68, R83). -/
theorem fetchDecode_of_lookupOpcode_eq_none {s : State} (h : lookupOpcode (s.byteAtPc 0) = none) :
    fetchDecode s = .error (.illegalOpcode (s.byteAtPc 0)) := by
  rw [State.byteAtPc_zero] at h ⊢
  simp [fetchDecode, decodeOp_of_lookupOpcode_eq_none _ h]

/-- A running machine takes the fault of an unrecognised opcode byte, and changes nothing else (R68, R182). -/
theorem step_of_lookupOpcode_eq_none {s : State} (hrun : s.status = .running)
    (h : lookupOpcode (s.byteAtPc 0) = none) :
    step s = .next (takeFault (.illegalOpcode (s.byteAtPc 0)) s) := by
  have hfetch := fetchDecode_of_lookupOpcode_eq_none h
  obtain ⟨i, hok, -⟩ | ⟨c, herr, hstep⟩ := step_running_cases hrun
  · rw [hfetch] at hok
    cases hok
  · rw [hfetch] at herr
    cases herr
    exact hstep

end Sys2Proof.Machine

namespace Sys2Proof.Proofs

open Sys2Proof.Machine

/-- Settles O8: the ROM's rows, the bytes outside them, and the fetch that rejects such a byte. -/
theorem everyOtherOpcodeByteIsIllegal : Obligations.EveryOtherOpcodeByteIsIllegal :=
  ⟨fun _ => lookupOpcode_eq_none_iff,
    length_unrecognised,
    rfl,
    fun _ => lookupOpcode_eq_none_of_topBits,
    fun _ bytes => decodeOp_of_lookupOpcode_eq_none bytes,
    fun _ => step_of_lookupOpcode_eq_none⟩

/-- Settles O9: a recognised byte is its operation's opcode byte, whose top two bits are the operand count. -/
theorem topBitsGiveTheOperandCount : Obligations.TopBitsGiveTheOperandCount := by
  refine ⟨fun op k h => ?_, fun _ => lookupOpcode_eq_none_of_topBits, ?_⟩
  · have hcount := operandCount_of_lookupOpcode h
    exact ⟨hcount, operandCount_eq_div op ▸ hcount⟩
  · decide

end Sys2Proof.Proofs

/-! PROOFS. The cycle (spec/40_cycle.md): when a step exists (R80), what a fetch decodes (R81 to R84), how the sequential
instructions end (R86), and what a fault leaves unchanged (R90). -/

namespace Sys2Proof

/-! ## Decoding reads only the operand bytes it wants -/

theorem operandsWanted_of_lookupOpcode {op : Byte} {k : OpKind} (h : lookupOpcode op = some k) :
    operandsWanted op = k.arity := by
  simp [operandsWanted, h, operandCount_of_lookupOpcode h]

theorem decodeOp_of_lookupOpcode {op : Byte} {k : OpKind} (bytes : List Byte) (h : lookupOpcode op = some k) :
    decodeOp op bytes = decodeOperands k bytes := by
  simp [decodeOp, h]

/-- An operation kind decodes to instructions of that kind only. -/
theorem kind_of_decodeOperands {k : OpKind} {bytes rest : List Byte} {i : Instr}
    (h : decodeOperands k bytes = .ok i rest) : i.kind = k := by
  cases k with
  | hlt | ret =>
    obtain ⟨rfl, -⟩ := Decoded.ok.inj h
    rfl
  | prn | push | pop | call | jmp =>
    obtain _ | ⟨a, bytes⟩ := bytes
    · cases h
    · obtain ⟨rfl, -⟩ := Decoded.ok.inj h
      rfl
  | ldi | mul | add =>
    obtain _ | ⟨a, _ | ⟨b, bytes⟩⟩ := bytes
    · cases h
    · cases h
    · obtain ⟨rfl, -⟩ := Decoded.ok.inj h
      rfl

/-- The bytes after the operands do not matter to what is decoded. -/
theorem decodeOperands_take {k : OpKind} {bytes : List Byte} {i : Instr} :
    (∃ rest, decodeOperands k (bytes.take k.arity) = .ok i rest) ↔ ∃ rest, decodeOperands k bytes = .ok i rest := by
  cases k with
  | hlt | ret => simp [decodeOperands, decodeF0]
  | prn | push | pop | call | jmp =>
    obtain _ | ⟨a, bytes⟩ := bytes <;> simp [OpKind.arity, decodeOperands, decodeF1R]
  | ldi | mul | add =>
    obtain _ | ⟨a, _ | ⟨b, bytes⟩⟩ := bytes <;> simp [OpKind.arity, decodeOperands, decodeF2RI, decodeF2RR]

theorem decodeOp_take {op : Byte} {bytes : List Byte} {i : Instr} :
    (∃ rest, decodeOp op (bytes.take (operandsWanted op)) = .ok i rest) ↔
      ∃ rest, decodeOp op bytes = .ok i rest := by
  cases h : lookupOpcode op with
  | none => simp [decodeOp_of_lookupOpcode_eq_none _ h]
  | some k => simp only [decodeOp_of_lookupOpcode _ h, operandsWanted_of_lookupOpcode h, decodeOperands_take]

/-- A byte that decodes is the opcode byte of the instruction it begins. -/
theorem eq_opcodeOf_of_decodeOp {op : Byte} {bytes rest : List Byte} {i : Instr} (h : decodeOp op bytes = .ok i rest) :
    op = opcodeOf i.kind := by
  cases hk : lookupOpcode op with
  | none => cases (decodeOp_of_lookupOpcode_eq_none bytes hk).symm.trans h
  | some k =>
    rw [decodeOp_of_lookupOpcode _ hk] at h
    rw [kind_of_decodeOperands h, lookupOpcode_eq_some_iff.mp hk]

end Sys2Proof

namespace Sys2Proof.Machine

/-! ## The fetch reads the bytes from the pc -/

theorem bytesFrom_eq_cons (m : Memory) {addr : Nat} (h : addr ≤ 255) :
    bytesFrom m addr = m.read addr :: bytesFrom m (addr + 1) := by
  have hlen : Config.memSize - addr = (Config.memSize - (addr + 1)) + 1 := by
    simp only [Config.memSize]
    omega
  rw [bytesFrom, hlen, List.range'_succ, List.map_cons, bytesFrom]

theorem bytesFrom_eq_nil (m : Memory) {addr : Nat} (h : 255 < addr) : bytesFrom m addr = [] := by
  have hlen : Config.memSize - addr = 0 := Nat.sub_eq_zero_of_le h
  simp [bytesFrom, hlen]

/-- The operand fetch reads the next bytes of memory, as many as there are (R45, R84). -/
theorem fetchOperands_eq_take (s : State) (n addr : Nat) :
    fetchOperands s n addr = (bytesFrom s.ram addr).take n := by
  induction n generalizing addr with
  | zero => rfl
  | succ n ih =>
    obtain ⟨h, hr⟩ | ⟨h, hr⟩ := memRead_cases s addr (.boundsOperand addr)
    · simp [fetchOperands, hr, ih, bytesFrom_eq_cons s.ram h]
    · simp [fetchOperands, hr, bytesFrom_eq_nil s.ram h]

theorem decode_bytesFrom_pc (s : State) :
    decode (bytesFrom s.ram s.pc.toNat) = decodeOp (s.byteAtPc 0) (bytesFrom s.ram (s.pc.toNat + 1)) := by
  rw [bytesFrom_eq_cons s.ram (Nat.le_of_lt_succ s.pc.isLt)]
  rfl

/-- The fetch gives an instruction exactly when the decoder reads it from the bytes at the pc (R81 to R84). -/
theorem fetchDecode_eq_ok_iff {s : State} {i : Instr} :
    fetchDecode s = .ok i ↔ ∃ rest, decode (bytesFrom s.ram s.pc.toNat) = .ok i rest := by
  rw [decode_bytesFrom_pc, ← decodeOp_take, ← fetchOperands_eq_take, State.byteAtPc_zero, fetchDecode]
  cases decodeOp _ _ <;> simp

/-- A fetched instruction's opcode byte is the byte at the pc. -/
theorem byteAtPc_of_fetchDecode {s : State} {i : Instr} (h : fetchDecode s = .ok i) :
    s.byteAtPc 0 = opcodeOf i.kind := by
  obtain ⟨rest, hdecode⟩ := fetchDecode_eq_ok_iff.mp h
  rw [decode_bytesFrom_pc] at hdecode
  exact eq_opcodeOf_of_decodeOp hdecode

/-- The fetch raises ILLEGAL_OPCODE or BOUNDS_OPERAND, no other cause (R83, R84). -/
theorem fetchDecode_error_cases {s : State} {c : FaultCause} (h : fetchDecode s = .error c) :
    (∃ op, c = .illegalOpcode op) ∨ ∃ addr, c = .boundsOperand addr := by
  simp only [fetchDecode] at h
  split at h <;> cases h
  · exact .inl ⟨_, rfl⟩
  · exact .inr ⟨_, rfl⟩
  · exact .inl ⟨_, rfl⟩

/-! ## When a step exists -/

theorem commit_eq_next (s : State) (staged : Except FaultCause State) : ∃ t, commit s staged = .next t := by
  cases staged with
  | ok t => exact ⟨t, rfl⟩
  | error c => exact ⟨takeFault c s, rfl⟩

/-- Every handler ends by committing what it staged (R90). -/
theorem exec_eq_commit (i : Instr) (s : State) : ∃ staged, exec i s = commit s staged := by
  unfold exec
  cases i <;> exact ⟨_, rfl⟩

theorem exec_eq_next (i : Instr) (s : State) : ∃ t, exec i s = .next t := by
  obtain ⟨staged, h⟩ := exec_eq_commit i s
  exact h ▸ commit_eq_next s staged

theorem step_eq_next_of_running {s : State} (h : s.status = .running) : ∃ t, step s = .next t := by
  obtain ⟨i, -, hexec⟩ | ⟨c, -, hfault⟩ := step_running_cases h
  · exact hexec ▸ exec_eq_next i s
  · exact ⟨_, hfault⟩

theorem step_eq_fault_of_terminal {s : State} (h : s.status ≠ .running) : ∃ f, step s = .fault f := by
  cases hs : s.status with
  | running => exact absurd hs h
  | halted => exact ⟨_, step_halted hs⟩
  | faulted c => exact ⟨_, step_faulted hs⟩

/-- A run whose first step faults stops there. -/
theorem run_succ_eq_fault {M : Host.Core} {s : M.State} {f : M.Fault} (k : Nat) (h : M.step s = .fault f) :
    M.run (k + 1) s = .fault f := by
  simp [Host.Core.run, h]

/-! ## AdvanceSequential -/

theorem advanceSequential_of_fits {n : Nat} {s : State} (h : s.pc.toNat + n + 1 ≤ 255) :
    advanceSequential n s = s.setPc (lowByte (s.pc.toNat + n + 1)) :=
  if_neg (Nat.not_lt.mpr h)

theorem advanceSequential_of_pastEnd {n : Nat} {s : State} (h : 255 < s.pc.toNat + n + 1) :
    advanceSequential n s = takeFault (.boundsNextPc (s.pc.toNat + n + 1)) s :=
  if_pos h

@[simp] theorem State.setPc_setPc (s : State) (p q : Byte) : (s.setPc p).setPc q = s.setPc q := rfl

/-- From pc 0 every instruction's successor address fits in the memory. -/
theorem advanceSequential_setPc_zero (k : OpKind) (s : State) :
    advanceSequential k.arity (s.setPc 0) = s.setPc (lowByte (k.arity + 1)) := by
  have hfits : k.arity + 1 ≤ 255 := Nat.le_trans (Nat.succ_le_succ k.arity_le_two) (by decide)
  simpa using advanceSequential_of_fits (n := k.arity) (s := s.setPc 0) (by simpa using hfits)

/-! ## What the sequential instructions do before they advance -/

@[simp] theorem aluResult_add (p q : Byte) : aluResult .add p q = p + q := by
  simp [aluResult, lowByte, BitVec.ofNat_add]

@[simp] theorem aluResult_mul (p q : Byte) : aluResult .mul p q = p * q := by
  simp [aluResult, lowByte, BitVec.ofNat_mul]

theorem exec_mul_reg (d r : Fin 8) (s : State) :
    exec (.mul (.reg d) (.reg r)) s = .next (advanceSequential 2 (s.setReg d (s.reg d * s.reg r))) := by
  rw [← aluResult_mul]
  rfl

theorem exec_add_reg (d r : Fin 8) (s : State) :
    exec (.add (.reg d) (.reg r)) s = .next (advanceSequential 2 (s.setReg d (s.reg d + s.reg r))) := by
  rw [← aluResult_add]
  rfl

theorem spDec_of_ne_zero {s : State} (h : s.sp ≠ 0) : spDec s = .ok (s.sp - 1) := if_neg h

theorem exec_push_of_sp_eq_zero {s : State} (a : RegOperand) (h : s.sp = 0) :
    exec (.push a) s = .next (takeFault (.boundsStack (-1)) s) := by
  simp [exec, execPush, spDec, h]

theorem exec_push_illegal {s : State} (v : Byte) (h : s.sp ≠ 0) :
    exec (.push (.illegal v)) s = .next (takeFault (.illegalRegister v) s) := by
  simp [exec, execPush, spDec_of_ne_zero h]

theorem exec_push_reg {s : State} (r : Fin 8) (h : s.sp ≠ 0) :
    exec (.push (.reg r)) s = .next (advanceSequential 1
      { s with sp := s.sp - 1, ram := s.ram.write (s.sp.toNat - 1) (s.reg r) }) := by
  have haddr : s.sp.toNat - 1 = (s.sp - 1).toNat := by bv_omega
  rw [haddr]
  simp only [exec, execPush, spDec_of_ne_zero h, ok_bind, regIdx_reg, memWrite_byte, commit_ok]
  rfl

theorem exec_pop_of_stackEmpty {s : State} (a : RegOperand) (h : stackEmpty s = true) :
    exec (.pop a) s = .next (takeFault (.stackUnderflow s.sp) s) := by
  simp [exec, execPop, h]

theorem exec_pop_illegal {s : State} (v : Byte) (h : stackEmpty s = false) :
    exec (.pop (.illegal v)) s = .next (takeFault (.illegalRegister v) s) := by
  simp [exec, execPop, h]

theorem exec_pop_reg {s : State} (d : Fin 8) (h : stackEmpty s = false) :
    exec (.pop (.reg d)) s = .next (advanceSequential 1
      ((s.setReg d (s.ram.read s.sp.toNat)).setSp (s.sp + 1))) := by
  simp [exec, execPop, h]

/-- An instruction that ends with AdvanceSequential, run at any pc: either an earlier check raises its cause, whatever the
pc, or its effects, which the pc has no part in, are followed by the advance (R86, R90). -/
theorem exec_sequential_cases {i : Instr} (hseq : isSequential (opcodeOf i.kind) = true) (s : State) :
    (∃ c, (∀ addr, c ≠ .boundsNextPc addr) ∧ ∀ p, exec i (s.setPc p) = .next (takeFault c (s.setPc p))) ∨
      ∃ u : State, u.status = s.status ∧
        ∀ p, exec i (s.setPc p) = .next (advanceSequential i.kind.arity (u.setPc p)) := by
  cases i with
  | hlt | call | ret | jmp => cases hseq
  | ldi a b =>
    cases a with
    | reg d => exact .inr ⟨s.setReg d b, rfl, fun _ => rfl⟩
    | illegal v => exact .inl ⟨.illegalRegister v, nofun, fun _ => rfl⟩
  | prn a =>
    cases a with
    | reg r => exact .inr ⟨s.emit (s.reg r), rfl, fun _ => rfl⟩
    | illegal v => exact .inl ⟨.illegalRegister v, nofun, fun _ => rfl⟩
  | mul a b | add a b =>
    cases a with
    | reg d =>
      cases b with
      | reg r => exact .inr ⟨aluApply _ d r s, rfl, fun _ => rfl⟩
      | illegal w => exact .inl ⟨.illegalRegister w, nofun, fun _ => rfl⟩
    | illegal v => exact .inl ⟨.illegalRegister v, nofun, fun _ => rfl⟩
  | push a =>
    by_cases hsp : s.sp = 0
    · exact .inl ⟨.boundsStack (-1), nofun, fun _ => exec_push_of_sp_eq_zero a hsp⟩
    · cases a with
      | reg r => exact .inr ⟨{ s with sp := s.sp - 1, ram := s.ram.write (s.sp.toNat - 1) (s.reg r) }, rfl,
          fun p => exec_push_reg (s := s.setPc p) r hsp⟩
      | illegal v => exact .inl ⟨.illegalRegister v, nofun, fun _ => exec_push_illegal v hsp⟩
  | pop a =>
    cases hempty : stackEmpty s with
    | true => exact .inl ⟨.stackUnderflow s.sp, nofun, fun _ => exec_pop_of_stackEmpty a hempty⟩
    | false =>
      cases a with
      | reg d => exact .inr ⟨(s.setReg d (s.ram.read s.sp.toNat)).setSp (s.sp + 1), rfl,
          fun p => exec_pop_reg (s := s.setPc p) d hempty⟩
      | illegal v => exact .inl ⟨.illegalRegister v, nofun, fun _ => exec_pop_illegal v hempty⟩

/-! ## What a fault leaves unchanged -/

/-- An instruction that does not end with AdvanceSequential raises its cause before it changes anything, or completes with no
fault of its own (R87, R90). -/
theorem exec_nonSequential_cases {i : Instr} (hseq : isSequential (opcodeOf i.kind) = false) {s t : State}
    (hexec : exec i s = .next t) :
    (∃ c, t = takeFault c s) ∨ t.status = s.status ∨ t.status = .halted := by
  cases i with
  | ldi | prn | mul | add | push | pop => cases hseq
  | hlt =>
    cases hexec
    exact .inr (.inr rfl)
  | call a =>
    obtain hok | ⟨c, -, ht⟩ := commit_cases hexec
    · obtain ⟨sp, -, hok⟩ := bind_ok_iff.mp hok
      dsimp only at hok
      split at hok
      · cases hok
      · obtain ⟨r, -, hok⟩ := bind_ok_iff.mp hok
        rw [memWrite_byte, ok_bind] at hok
        cases hok
        exact .inr (.inl rfl)
    · exact .inl ⟨c, ht⟩
  | ret =>
    obtain hok | ⟨c, -, ht⟩ := commit_cases hexec
    · obtain ⟨v, -, hok⟩ := bind_ok_iff.mp hok
      obtain ⟨sp, -, hok⟩ := bind_ok_iff.mp hok
      cases hok
      exact .inr (.inl rfl)
    · exact .inl ⟨c, ht⟩
  | jmp a =>
    cases a with
    | reg r =>
      cases hexec
      exact .inr (.inl rfl)
    | illegal v =>
      cases hexec
      exact .inl ⟨_, rfl⟩

/-- How an instruction can fault: with only the status changed, or, if it is sequential, in its advance, after the effects
it has where the pc can advance (R86, R90, R191). -/
theorem exec_fault_cases {i : Instr} {s t : State} {c : FaultCause} (hrun : s.status = .running)
    (hexec : exec i s = .next t) (hfault : t.status = .faulted c) :
    (t = takeFault c s ∧ ∀ addr, c = .boundsNextPc addr → isSequential (opcodeOf i.kind) = false) ∨
      isSequential (opcodeOf i.kind) = true ∧ (∃ addr, c = .boundsNextPc addr) ∧
        ∃ u, exec i (s.setPc 0) = .next u ∧ u.status = .running ∧ t = takeFault c (u.setPc s.pc) := by
  cases hseq : isSequential (opcodeOf i.kind) with
  | false =>
    obtain ⟨c', rfl⟩ | hst | hst := exec_nonSequential_cases hseq hexec
    · cases hfault
      exact .inl ⟨rfl, fun _ _ => rfl⟩
    · cases hrun.symm.trans (hst.symm.trans hfault)
    · cases hst.symm.trans hfault
  | true =>
    obtain ⟨c', hne, hraise⟩ | ⟨u, hst, hadv⟩ := exec_sequential_cases hseq s
    · cases (hraise s.pc).symm.trans hexec
      cases hfault
      exact .inl ⟨rfl, fun addr hc => absurd hc (hne addr)⟩
    · cases (hadv s.pc).symm.trans hexec
      obtain ⟨-, hpc⟩ | ⟨-, hpc⟩ := advanceSequential_cases i.kind.arity (u.setPc s.pc)
      · rw [hpc, State.setPc_status, State.setPc_status, hst, hrun] at hfault
        cases hfault
      · rw [hpc] at hfault ⊢
        cases hfault
        refine .inr ⟨rfl, ⟨_, rfl⟩, u.setPc (lowByte (i.kind.arity + 1)), ?_, hst.trans hrun, rfl⟩
        rw [hadv, advanceSequential_setPc_zero]

end Sys2Proof.Machine

namespace Sys2Proof.Proofs

open Sys2Proof.Machine

/-- Settles O38: a fetch that faults changes only the status; a decoded instruction faults in one of two ways. -/
theorem faultsChangeOnlyTheStatus : Obligations.FaultsChangeOnlyTheStatus := by
  intro s t c hrun hstep hfault
  obtain ⟨i, hfetch, hexec⟩ | ⟨c', hfetch, htake⟩ := step_running_cases hrun
  · rw [byteAtPc_of_fetchDecode hfetch]
    obtain ⟨rfl, hseq⟩ | ⟨hseq, ⟨addr, hc⟩, u, hu, hurun, rfl⟩ :=
      exec_fault_cases hrun (hexec.symm.trans hstep) hfault
    · refine ⟨rfl, fun _ => rfl, fun addr hc hseq' => ?_⟩
      exact absurd (hseq addr hc) (by simp [hseq'])
    · refine ⟨rfl, fun hnot => ?_, fun _ _ _ => ?_⟩
      · exact absurd (hnot addr hc) (by simp [hseq])
      · obtain ⟨rest, hdecode⟩ := fetchDecode_eq_ok_iff.mp hfetch
        exact ⟨i, rest, u, hdecode, hu, hurun, rfl⟩
  · cases htake.symm.trans hstep
    cases hfault
    refine ⟨rfl, fun _ => rfl, fun addr hc => ?_⟩
    obtain ⟨op, rfl⟩ | ⟨a, rfl⟩ := fetchDecode_error_cases hfetch <;> cases hc

/-- Settles O10: a running machine's step answers a next state, a terminal machine's answers a fault. -/
theorem stepExistsExactlyWhenRunning : Obligations.StepExistsExactlyWhenRunning := by
  refine ⟨fun s => ⟨?_, step_eq_next_of_running⟩, fun s hterm k t hrun => ?_⟩
  · rintro ⟨t, hstep⟩
    by_contra hterm
    obtain ⟨f, hf⟩ := step_eq_fault_of_terminal hterm
    cases hf.symm.trans hstep
  · obtain ⟨f, hf⟩ := step_eq_fault_of_terminal hterm
    cases (run_succ_eq_fault (M := Sys2Proof.core) k hf).symm.trans hrun

/-- Settles O28: AdvanceSequential's two cases, and each sequential handler as its effects followed by it. -/
theorem sequentialAdvanceKeepsEffectsAtTheEnd : Obligations.SequentialAdvanceKeepsEffectsAtTheEnd := by
  refine ⟨fun _ _ => advanceSequential_of_fits, fun _ _ => advanceSequential_of_pastEnd, fun s d r b =>
    ⟨rfl, rfl, exec_mul_reg d r s, exec_add_reg d r s, fun hsp => ?_, fun hsp => ?_⟩⟩
  · exact exec_push_reg r (fun h => by simp [h] at hsp)
  · exact exec_pop_reg d (decide_eq_false (Nat.not_le.mpr (Nat.lt_succ_of_le hsp)))

end Sys2Proof.Proofs

/-! PROOFS. HLT, LDI and PRN (spec/41_hlt_ldi_prn.md R100 to R102), and what a step of a recognised opcode byte does before
its handler runs: the instruction it hands over, or the operand byte that lies past the end of the memory (R84). -/

namespace Sys2Proof

/-! ## The operands of a recognised opcode byte -/

/-- Operand bytes that end too early are missed at the first one that is not there (R84). -/
theorem decodeOperands_of_length_lt {k : OpKind} {bytes : List Byte} (h : bytes.length < k.arity) :
    decodeOperands k bytes = .missingOperand (bytes.length + 1) := by
  cases k with
  | hlt | ret => exact absurd h (Nat.not_lt_zero _)
  | prn | push | pop | call | jmp =>
    obtain rfl : bytes = [] := List.length_eq_zero_iff.mp (Nat.lt_one_iff.mp h)
    rfl
  | ldi | mul | add =>
    match bytes, h with
    | [], _ | [_], _ => rfl

theorem RegOperand.ofByte_of_lt {v : Byte} (h : v.toNat < 8) : RegOperand.ofByte v = .reg ⟨v.toNat, h⟩ := dif_pos h

theorem RegOperand.ofByte_of_not_lt {v : Byte} (h : ¬ v.toNat < 8) : RegOperand.ofByte v = .illegal v := dif_neg h

end Sys2Proof

namespace Sys2Proof.Machine

@[simp] theorem length_bytesFrom (m : Memory) (addr : Nat) : (bytesFrom m addr).length = 256 - addr := by
  simp [bytesFrom]

/-! ## The step, from the opcode byte at the pc -/

variable {s : State} {k : OpKind}

/-- An operand past the end of the memory is reported at address 256, the first one outside it (R84, R184). -/
theorem fetchDecode_of_operand_pastEnd (hop : s.byteAtPc 0 = opcodeOf k) (hpc : 255 < s.pc.toNat + k.arity) :
    fetchDecode s = .error (.boundsOperand 256) := by
  have hlt : (bytesFrom s.ram (s.pc.toNat + 1)).length < k.arity := by
    rw [length_bytesFrom]
    omega
  have hlook : lookupOpcode (s.ram.read s.pc.toNat) = some k := lookupOpcode_eq_some_iff.mpr hop
  have haddr : s.pc.toNat + (256 - (s.pc.toNat + 1) + 1) = 256 := by
    have := s.pc.isLt
    omega
  simp only [fetchDecode, operandsWanted_of_lookupOpcode hlook, fetchOperands_eq_take, List.take_of_length_le hlt.le,
    decodeOp_of_lookupOpcode _ hlook, decodeOperands_of_length_lt hlt, length_bytesFrom, haddr]

theorem step_of_operand_pastEnd (hrun : s.status = .running) (hop : s.byteAtPc 0 = opcodeOf k)
    (hpc : 255 < s.pc.toNat + k.arity) : step s = .next (takeFault (.boundsOperand 256) s) := by
  simp [step, hrun, fetchDecode_of_operand_pastEnd hop hpc]

/-- A running machine executes what its opcode byte's format reads from the bytes after the pc (R84, R85). -/
theorem step_of_decodeOperands {i : Instr} {rest : List Byte} (hrun : s.status = .running)
    (hop : s.byteAtPc 0 = opcodeOf k) (hdecode : decodeOperands k (bytesFrom s.ram (s.pc.toNat + 1)) = .ok i rest) :
    step s = exec i s := by
  have hfetch : fetchDecode s = .ok i := fetchDecode_eq_ok_iff.mpr ⟨rest, by
    rw [decode_bytesFrom_pc, decodeOp_of_lookupOpcode _ (lookupOpcode_eq_some_iff.mpr hop), hdecode]⟩
  simp [step, hrun, hfetch]

/-- One register operand, whose byte lies in the memory (R62, format F1R). -/
theorem step_of_decodeF1R {f : RegOperand → Instr} (hk : decodeOperands k = decodeF1R f) (hrun : s.status = .running)
    (hop : s.byteAtPc 0 = opcodeOf k) (hpc : s.pc.toNat + 1 ≤ 255) :
    step s = exec (f (.ofByte (s.byteAtPc 1))) s := by
  refine step_of_decodeOperands (rest := bytesFrom s.ram (s.pc.toNat + 2)) hrun hop ?_
  rw [hk, bytesFrom_eq_cons s.ram hpc]
  rfl

/-- A register operand and an immediate, whose bytes lie in the memory (R62, format F2RI). -/
theorem step_of_decodeF2RI {f : RegOperand → Byte → Instr} (hk : decodeOperands k = decodeF2RI f)
    (hrun : s.status = .running) (hop : s.byteAtPc 0 = opcodeOf k) (hpc : s.pc.toNat + 2 ≤ 255) :
    step s = exec (f (.ofByte (s.byteAtPc 1)) (s.byteAtPc 2)) s := by
  refine step_of_decodeOperands (rest := bytesFrom s.ram (s.pc.toNat + 3)) hrun hop ?_
  rw [hk, bytesFrom_eq_cons s.ram (Nat.le_of_succ_le hpc), bytesFrom_eq_cons s.ram hpc]
  rfl

/-! ## AdvanceSequential, where the operands lie in the memory -/

/-- The successor of an instruction that ends at address 255 is address 256 (R86). -/
theorem advanceSequential_of_endsAtLastAddress {n : Nat} (h : s.pc.toNat + n = 255) :
    advanceSequential n s = takeFault (.boundsNextPc 256) s := by
  rw [advanceSequential_of_pastEnd (by omega), h]

/-- A successor address that fits is the byte sum of the pc and the instruction's length, without wrap (R86). -/
theorem advanceSequential_of_endsBeforeLastAddress {n : Nat} (h : s.pc.toNat + n < 255) :
    advanceSequential n s = s.setPc (s.pc + lowByte (n + 1)) := by
  simp [advanceSequential_of_fits h, Nat.add_assoc, lowByte, BitVec.ofNat_add]

/-! ## What the handlers of HLT, LDI and PRN do -/

theorem exec_hlt (s : State) : exec .hlt s = .next s.halt := rfl

theorem exec_ldi_reg (d : Fin 8) (b : Byte) (s : State) :
    exec (.ldi (.reg d) b) s = .next (advanceSequential 2 (s.setReg d b)) := rfl

theorem exec_ldi_illegal (v b : Byte) (s : State) :
    exec (.ldi (.illegal v) b) s = .next (takeFault (.illegalRegister v) s) := rfl

theorem exec_prn_reg (r : Fin 8) (s : State) :
    exec (.prn (.reg r)) s = .next (advanceSequential 1 (s.emit (s.reg r))) := rfl

theorem exec_prn_illegal (v : Byte) (s : State) :
    exec (.prn (.illegal v)) s = .next (takeFault (.illegalRegister v) s) := rfl

end Sys2Proof.Machine

namespace Sys2Proof.Proofs

open Sys2Proof.Machine

/-- Settles O15: the operand bounds, then the register check, then the write and the advance, in R101's order. -/
theorem ldiStepFollowsItsRule : Obligations.LdiStepFollowsItsRule := by
  intro s hrun hop
  dsimp only
  split_ifs with hpc ha hend
  · exact step_of_operand_pastEnd (k := .ldi) hrun hop (Nat.add_le_add_right hpc 2)
  all_goals rw [step_of_decodeF2RI (k := .ldi) rfl hrun hop (by omega)]
  · rw [RegOperand.ofByte_of_lt ha, exec_ldi_reg, advanceSequential_of_endsAtLastAddress (by simp [hend])]
    rfl
  · rw [RegOperand.ofByte_of_lt ha, exec_ldi_reg, advanceSequential_of_endsBeforeLastAddress (by simp; omega)]
    rfl
  · rw [RegOperand.ofByte_of_not_lt ha, exec_ldi_illegal]
    rfl

/-- Settles O16: the operand bounds, then the register check, then the emission and the advance, in R102's order. -/
theorem prnStepFollowsItsRule : Obligations.PrnStepFollowsItsRule := by
  intro s hrun hop
  dsimp only
  split_ifs with hpc ha hend
  · exact step_of_operand_pastEnd (k := .prn) hrun hop (by simp [hpc, OpKind.arity])
  all_goals rw [step_of_decodeF1R (k := .prn) rfl hrun hop (by have := s.pc.isLt; omega)]
  · rw [RegOperand.ofByte_of_lt ha, exec_prn_reg, advanceSequential_of_endsAtLastAddress (by simp [hend])]
    rfl
  · rw [RegOperand.ofByte_of_lt ha, exec_prn_reg,
      advanceSequential_of_endsBeforeLastAddress (by have := s.pc.isLt; simp; omega)]
    rfl
  · rw [RegOperand.ofByte_of_not_lt ha, exec_prn_illegal]
    rfl

/-- Settles O14: no operand is fetched, so the handler runs at every pc; the status it leaves has no step. -/
theorem hltStepFollowsItsRule : Obligations.HltStepFollowsItsRule := by
  intro s hrun hop
  refine ⟨?_, fun t hstep => ?_, rfl⟩
  · rw [step_of_decodeOperands (k := .hlt) hrun hop rfl, exec_hlt]
    rfl
  · cases (step_halted rfl).symm.trans hstep

end Sys2Proof.Proofs

/-! PROOFS. The ALU's two instructions, MUL and ADD (spec/42_alu.md R120 to R123): their rules are one rule over the
operation. -/

namespace Sys2Proof

/-- Keeping the low byte is reduction mod 256 (R8). -/
theorem lowByte_eq_ofNat_mod (n : Nat) : lowByte n = BitVec.ofNat 8 (n % 256) :=
  BitVec.eq_of_toNat_eq (Nat.mod_mod n 256).symm

end Sys2Proof

namespace Sys2Proof.Machine

/-! ## The ALU -/

/-- The ALU's sum: the low byte of the exact one, into x[d] only (R120). -/
theorem aluApply_add (d r : Fin 8) (s : State) :
    aluApply .add d r s =
      { s with x := s.x.set d.val (BitVec.ofNat 8 ((s.x[d.val].toNat + s.x[r.val].toNat) % 256)) } := by
  rw [← lowByte_eq_ofNat_mod]
  rfl

/-- The ALU's product: the low byte of the exact one, into x[d] only (R120). -/
theorem aluApply_mul (d r : Fin 8) (s : State) :
    aluApply .mul d r s =
      { s with x := s.x.set d.val (BitVec.ofNat 8 ((s.x[d.val].toNat * s.x[r.val].toNat) % 256)) } := by
  rw [← lowByte_eq_ofNat_mod]
  rfl

/-! ## The instruction of an ALU operation -/

/-- The operation kind that selects an ALU operation (R122, R123). -/
def AluOp.kind : AluOp → OpKind
  | .add => .add
  | .mul => .mul

/-- The instruction that applies an ALU operation to two register operands (R122, R123). -/
def AluOp.instr : AluOp → RegOperand → RegOperand → Instr
  | .add => .add
  | .mul => .mul

theorem AluOp.arity_kind (op : AluOp) : op.kind.arity = 2 := by
  cases op <;> rfl

theorem AluOp.decodeOperands_kind (op : AluOp) : decodeOperands op.kind = decodeF2RR op.instr := by
  cases op <;> rfl

theorem exec_alu_reg (op : AluOp) (d r : Fin 8) (s : State) :
    exec (op.instr (.reg d) (.reg r)) s = .next (advanceSequential 2 (aluApply op d r s)) := by
  cases op <;> rfl

/-- Operand a is checked before operand b, whatever b is. -/
theorem exec_alu_illegal_left (op : AluOp) (v : Byte) (b : RegOperand) (s : State) :
    exec (op.instr (.illegal v) b) s = .next (takeFault (.illegalRegister v) s) := by
  cases op <;> rfl

theorem exec_alu_illegal_right (op : AluOp) (d : Fin 8) (v : Byte) (s : State) :
    exec (op.instr (.reg d) (.illegal v)) s = .next (takeFault (.illegalRegister v) s) := by
  cases op <;> rfl

/-! ## The step of an ALU instruction -/

/-- Two register operands, whose bytes lie in the memory (R62, format F2RR). -/
theorem step_of_decodeF2RR {s : State} {k : OpKind} {f : RegOperand → RegOperand → Instr}
    (hk : decodeOperands k = decodeF2RR f) (hrun : s.status = .running) (hop : s.byteAtPc 0 = opcodeOf k)
    (hpc : s.pc.toNat + 2 ≤ 255) :
    step s = exec (f (.ofByte (s.byteAtPc 1)) (.ofByte (s.byteAtPc 2))) s := by
  refine step_of_decodeOperands (rest := bytesFrom s.ram (s.pc.toNat + 3)) hrun hop ?_
  rw [hk, bytesFrom_eq_cons s.ram (Nat.le_of_succ_le hpc), bytesFrom_eq_cons s.ram hpc]
  rfl

/-- The rule R122 and R123 share: the operand bounds, then operand a, then operand b, then the ALU's write, which stays
where the advance past it faults. -/
theorem step_of_aluOp {s : State} {op : AluOp} (hrun : s.status = .running) (hop : s.byteAtPc 0 = opcodeOf op.kind) :
    step s = .next (
      if 254 ≤ s.pc.toNat then takeFault (.boundsOperand 256) s
      else if ha : (s.byteAtPc 1).toNat < 8 then
        if hb : (s.byteAtPc 2).toNat < 8 then
          let t := aluApply op ⟨(s.byteAtPc 1).toNat, ha⟩ ⟨(s.byteAtPc 2).toNat, hb⟩ s
          if s.pc.toNat = 253 then takeFault (.boundsNextPc 256) t else t.setPc (s.pc + 3)
        else takeFault (.illegalRegister (s.byteAtPc 2)) s
      else takeFault (.illegalRegister (s.byteAtPc 1)) s) := by
  dsimp only
  split_ifs with hpc ha hb hend
  · exact step_of_operand_pastEnd hrun hop (by rw [op.arity_kind]; omega)
  all_goals rw [step_of_decodeF2RR op.decodeOperands_kind hrun hop (by omega)]
  · rw [RegOperand.ofByte_of_lt ha, RegOperand.ofByte_of_lt hb, exec_alu_reg,
      advanceSequential_of_endsAtLastAddress (by simp [hend])]
  · rw [RegOperand.ofByte_of_lt ha, RegOperand.ofByte_of_lt hb, exec_alu_reg,
      advanceSequential_of_endsBeforeLastAddress (by rw [aluApply_pc]; omega)]
    rfl
  · rw [RegOperand.ofByte_of_lt ha, RegOperand.ofByte_of_not_lt hb, exec_alu_illegal_right]
  · rw [RegOperand.ofByte_of_not_lt ha, exec_alu_illegal_left]

end Sys2Proof.Machine

namespace Sys2Proof.Proofs

open Sys2Proof.Machine

/-- Settles O54: the exact sum or product, reduced mod 256, is all an operation writes. -/
theorem aluKeepsTheLowByteOfTheExactResult : Obligations.AluKeepsTheLowByteOfTheExactResult :=
  fun d r s => ⟨aluApply_add d r s, aluApply_mul d r s⟩

/-- Settles O17: the rule of an ALU instruction, with the ALU's product written out. -/
theorem mulStepFollowsItsRule : Obligations.MulStepFollowsItsRule := by
  intro s hrun hop
  rw [step_of_aluOp (op := .mul) hrun hop]
  simp only [aluApply_mul]
  rfl

/-- Settles O18: the rule of an ALU instruction, with the ALU's sum written out. -/
theorem addStepFollowsItsRule : Obligations.AddStepFollowsItsRule := by
  intro s hrun hop
  rw [step_of_aluOp (op := .add) hrun hop]
  simp only [aluApply_add]
  rfl

end Sys2Proof.Proofs

/-! PROOFS. The two stack instructions, PUSH and POP (spec/43_stack.md R140 to R143): what they share is how a step of a
one-operand instruction begins and how its advance ends. -/

namespace Sys2Proof.Machine

variable {s : State}

/-- The step of a one-operand instruction: its operand byte lies past the end of the memory exactly at pc 255, and otherwise
its handler runs (R84, R85). -/
theorem step_of_decodeF1R_eq_ite {k : OpKind} {f : RegOperand → Instr} (hk : decodeOperands k = decodeF1R f)
    (harity : k.arity = 1) (hrun : s.status = .running) (hop : s.byteAtPc 0 = opcodeOf k) :
    step s = if s.pc.toNat = 255 then .next (takeFault (.boundsOperand 256) s)
      else exec (f (.ofByte (s.byteAtPc 1))) s := by
  have hlt := s.pc.isLt
  split_ifs with hpc
  · exact step_of_operand_pastEnd hrun hop (by omega)
  · exact step_of_decodeF1R hk hrun hop (by omega)

/-- The advance past a one-operand instruction whose operand lies in the memory: only from pc 254 is there no successor
address (R86). -/
theorem advanceSequential_one_eq_ite (h : s.pc.toNat ≠ 255) :
    advanceSequential 1 s =
      if s.pc.toNat = 254 then takeFault (.boundsNextPc 256) s else s.setPc (s.pc + 2) := by
  have hlt := s.pc.isLt
  split_ifs with hend
  · exact advanceSequential_of_endsAtLastAddress (by omega)
  · exact advanceSequential_of_endsBeforeLastAddress (by omega)

theorem sp_eq_zero_iff : s.sp = 0 ↔ s.sp.toNat = 0 := BitVec.toNat_eq

/-- The stack is empty from SP_RESET upwards (R141). -/
theorem stackEmpty_iff : stackEmpty s = true ↔ 0xF4 ≤ s.sp.toNat := decide_eq_true_iff

end Sys2Proof.Machine

namespace Sys2Proof.Proofs

open Sys2Proof.Machine

/-- Settles O19: the operand bounds, then the stack bound, then the register check, then the store and the advance, in R142's
order. -/
theorem pushStepFollowsItsRule : Obligations.PushStepFollowsItsRule := by
  intro s hrun hop
  rw [step_of_decodeF1R_eq_ite (k := .push) rfl rfl hrun hop]
  dsimp only
  split_ifs with hpc hsp ha hend
  · rfl
  · rw [exec_push_of_sp_eq_zero _ (sp_eq_zero_iff.mpr hsp)]
    rfl
  all_goals have hsp0 : s.sp ≠ 0 := mt sp_eq_zero_iff.mp hsp
  · rw [RegOperand.ofByte_of_lt ha, exec_push_reg _ hsp0, advanceSequential_one_eq_ite (by simpa using hpc)]
    exact congrArg Host.Outcome.next (if_pos hend)
  · rw [RegOperand.ofByte_of_lt ha, exec_push_reg _ hsp0, advanceSequential_one_eq_ite (by simpa using hpc)]
    exact congrArg Host.Outcome.next (if_neg hend)
  · rw [RegOperand.ofByte_of_not_lt ha, exec_push_illegal _ hsp0]
    rfl

/-- Settles O20: the operand bounds, then the empty-stack test, then the register check, then the read and the advance, in
R143's order. -/
theorem popStepFollowsItsRule : Obligations.PopStepFollowsItsRule := by
  intro s hrun hop
  rw [step_of_decodeF1R_eq_ite (k := .pop) rfl rfl hrun hop]
  dsimp only
  split_ifs with hpc hsp ha hend
  · rfl
  · rw [exec_pop_of_stackEmpty _ (stackEmpty_iff.mpr hsp)]
    rfl
  all_goals have hnonempty : stackEmpty s = false := Bool.eq_false_iff.mpr (mt stackEmpty_iff.mp hsp)
  · rw [RegOperand.ofByte_of_lt ha, exec_pop_reg _ hnonempty, advanceSequential_one_eq_ite (by simpa using hpc)]
    exact congrArg Host.Outcome.next (if_pos hend)
  · rw [RegOperand.ofByte_of_lt ha, exec_pop_reg _ hnonempty, advanceSequential_one_eq_ite (by simpa using hpc)]
    exact congrArg Host.Outcome.next (if_neg hend)
  · rw [RegOperand.ofByte_of_not_lt ha, exec_pop_illegal _ hnonempty]
    rfl

end Sys2Proof.Proofs

/-! PROOFS. CALL, RET and JMP (spec/44_control.md R160 to R162), which set the pc directly: what each handler answers where a
check fails and where it completes, and the three rules of a step. -/

namespace Sys2Proof.Machine

variable {s : State}

/-! ## CALL, by its first failing check (R160) -/

theorem exec_call_of_sp_eq_zero (a : RegOperand) (h : s.sp = 0) :
    exec (.call a) s = .next (takeFault (.boundsStack (-1)) s) := by
  simp [exec, execCall, spDec, h]

/-- The return address is checked before the register, whatever the operand is. -/
theorem exec_call_of_return_pastEnd (a : RegOperand) (hsp : s.sp ≠ 0) (hret : 255 < s.pc.toNat + 2) :
    exec (.call a) s = .next (takeFault (.boundsNextPc (s.pc.toNat + 2)) s) := by
  simp [exec, execCall, spDec_of_ne_zero hsp, hret]

theorem exec_call_illegal (v : Byte) (hsp : s.sp ≠ 0) (hret : s.pc.toNat + 2 ≤ 255) :
    exec (.call (.illegal v)) s = .next (takeFault (.illegalRegister v) s) := by
  simp [exec, execCall, spDec_of_ne_zero hsp, Nat.not_lt.mpr hret]

/-- A CALL that passes its checks stores the return address below the stack pointer; the target is read before that. -/
theorem exec_call_reg (r : Fin 8) (hsp : s.sp ≠ 0) (hret : s.pc.toNat + 2 ≤ 255) :
    exec (.call (.reg r)) s = .next
      { s with sp := s.sp - 1, ram := s.ram.write (s.sp.toNat - 1) (s.pc + 2), pc := s.reg r } := by
  have haddr : s.sp.toNat - 1 = (s.sp - 1).toNat := by bv_omega
  have hlow : lowByte (s.pc.toNat + 2) = s.pc + 2 := by simp [lowByte, BitVec.ofNat_add]
  simp only [exec, execCall, spDec_of_ne_zero hsp, ok_bind, if_neg (Nat.not_lt.mpr hret), regIdx_reg, memWrite_byte,
    commit_ok, haddr, hlow]
  rfl

/-! ## RET and JMP (R161, R162) -/

theorem sp_eq_255_iff : s.sp = 255 ↔ s.sp.toNat = 255 := BitVec.toNat_eq

theorem exec_ret_of_sp_eq_255 (h : s.sp = 255) : exec .ret s = .next (takeFault (.boundsStack 256) s) := by
  simp only [exec, execRet, memRead_byte, ok_bind, spInc, if_pos h, error_bind, commit_error]

/-- RET takes the byte at the stack pointer, whatever put it there: there is no empty-stack test. -/
theorem exec_ret_of_sp_ne_255 (h : s.sp ≠ 255) :
    exec .ret s = .next { s with pc := s.ram.read s.sp.toNat, sp := s.sp + 1 } := by
  simp only [exec, execRet, memRead_byte, ok_bind, spInc, if_neg h, commit_ok]
  rfl

theorem exec_jmp_reg (r : Fin 8) (s : State) : exec (.jmp (.reg r)) s = .next (s.setPc (s.reg r)) := rfl

theorem exec_jmp_illegal (v : Byte) (s : State) :
    exec (.jmp (.illegal v)) s = .next (takeFault (.illegalRegister v) s) := rfl

end Sys2Proof.Machine

namespace Sys2Proof.Proofs

open Sys2Proof.Machine

/-- Settles O21: the operand bounds, then the stack bound, then the return address, then the register check, then the store
and the jump, in R160's order. -/
theorem callStepFollowsItsRule : Obligations.CallStepFollowsItsRule := by
  intro s hrun hop
  rw [step_of_decodeF1R_eq_ite (k := .call) rfl rfl hrun hop]
  dsimp only
  split_ifs with hpc hsp hend ha
  · rfl
  · rw [exec_call_of_sp_eq_zero _ (sp_eq_zero_iff.mpr hsp)]
    rfl
  all_goals have hsp0 : s.sp ≠ 0 := mt sp_eq_zero_iff.mp hsp
  · rw [exec_call_of_return_pastEnd _ hsp0 (by omega), hend]
    rfl
  all_goals have hret : s.pc.toNat + 2 ≤ 255 := by have := s.pc.isLt; omega
  · rw [RegOperand.ofByte_of_lt ha, exec_call_reg _ hsp0 hret]
    rfl
  · rw [RegOperand.ofByte_of_not_lt ha, exec_call_illegal _ hsp0 hret]
    rfl

/-- Settles O22: no operand is fetched, so the handler runs at every pc, and only the stack bound can stop it. -/
theorem retStepFollowsItsRule : Obligations.RetStepFollowsItsRule := by
  intro s hrun hop
  rw [step_of_decodeOperands (k := .ret) hrun hop rfl]
  split_ifs with hsp
  · exact exec_ret_of_sp_eq_255 (sp_eq_255_iff.mpr hsp)
  · exact exec_ret_of_sp_ne_255 (mt sp_eq_255_iff.mp hsp)

/-- Settles O23: the operand bounds, then the register check, then the jump; no successor address is computed, so pc 254 is
no exception. -/
theorem jmpStepFollowsItsRule : Obligations.JmpStepFollowsItsRule := by
  intro s hrun hop
  rw [step_of_decodeF1R_eq_ite (k := .jmp) rfl rfl hrun hop]
  dsimp only
  split_ifs with hpc ha
  · rfl
  · rw [RegOperand.ofByte_of_lt ha, exec_jmp_reg]
    rfl
  · rw [RegOperand.ofByte_of_not_lt ha, exec_jmp_illegal]
    rfl

end Sys2Proof.Proofs

/-! PROOFS. Faults (spec/60_exceptions.md R182 to R190). Each line of a handler that can raise a cause is one check of
R190's list, so the status a step leaves is read off the list (R190); the rule of a cause (R182 to R188) then says which
checks of the list report it and what has passed before them. -/

namespace Sys2Proof.Machine

/-! ## The first failing check of a list -/

/-- What R190 reports of a list of checks. -/
def firstFailing (checks : List Check) : Option FaultCause :=
  checks.findSome? (fun c => if c.1 then some c.2 else none)

theorem firstFault_eq_firstFailing (s : State) : firstFault s = firstFailing (stepChecks s) := rfl

@[simp] theorem firstFailing_nil : firstFailing [] = none := rfl

@[simp] theorem firstFailing_cons (fails : Bool) (c : FaultCause) (checks : List Check) :
    firstFailing ((fails, c) :: checks) = if fails then some c else firstFailing checks := by
  cases fails <;> rfl

/-- A cause reported is the cause of a listed check. -/
theorem exists_mem_of_firstFailing {checks : List Check} {c : FaultCause} (h : firstFailing checks = some c) :
    ∃ check ∈ checks, check.2 = c := by
  obtain ⟨check, hmem, hc⟩ := List.exists_of_findSome?_eq_some h
  obtain ⟨-, hc⟩ := Option.ite_none_right_eq_some.mp hc
  exact ⟨check, hmem, Option.some.inj hc⟩

/-- The status a first failing check leaves; `done` where no check fails. -/
def statusAfter (done : RunStatus) : Option FaultCause → RunStatus
  | some c => .faulted c
  | none => done

theorem statusAfter_eq_faulted_iff {done : RunStatus} {first : Option FaultCause} {c : FaultCause}
    (hdone : done ≠ .faulted c) : statusAfter done first = .faulted c ↔ first = some c := by
  cases first <;> simp [statusAfter, hdone]

/-! ## R190's list, from the opcode byte at the pc -/

variable {s : State} {k : OpKind} {c : FaultCause}

/-- AdvanceSequential(n), as a check (R86). -/
def checkAdvance (s : State) (n : Nat) : Check :=
  (decide (255 < s.pc.toNat + n + 1), .boundsNextPc (s.pc.toNat + n + 1))

/-- The checks an operation makes once its operands are fetched: the handler's own, then its advance (R190). -/
def executionChecks (s : State) : OpKind → List Check
  | .hlt => []
  | .ldi => [checkReg (s.byteAtPc 1), checkAdvance s 2]
  | .prn => [checkReg (s.byteAtPc 1), checkAdvance s 1]
  | .mul | .add => [checkReg (s.byteAtPc 1), checkReg (s.byteAtPc 2), checkAdvance s 2]
  | .push => [checkSpDec s, checkReg (s.byteAtPc 1), checkAdvance s 1]
  | .pop => [(decide (0xF4 ≤ s.sp.toNat), .stackUnderflow s.sp), checkReg (s.byteAtPc 1), checkAdvance s 1]
  | .call => [checkSpDec s, (decide (255 < s.pc.toNat + 2), .boundsNextPc (s.pc.toNat + 2)), checkReg (s.byteAtPc 1)]
  | .ret => [(decide (s.sp.toNat = 255), .boundsStack 256)]
  | .jmp => [checkReg (s.byteAtPc 1)]

/-- The last two points of R190's list come to the operation's own checks. -/
theorem firstFailing_executionChecks (hop : s.byteAtPc 0 = opcodeOf k) :
    firstFailing (executionChecks s k) = firstFailing (handlerChecks s ++
      [(isSequential (opcodeOf k) && decide (255 < s.pc.toNat + k.arity + 1),
        .boundsNextPc (s.pc.toNat + k.arity + 1))]) := by
  cases k <;>
    simp [executionChecks, handlerChecks, hop, opcodeOf, OpKind.arity, isSequential, checkAdvance, checkReg, checkSpDec]

/-- Recognition is the first check of all (R190). -/
theorem firstFault_of_lookupOpcode_eq_none (h : lookupOpcode (s.byteAtPc 0) = none) :
    firstFault s = some (.illegalOpcode (s.byteAtPc 0)) := by
  simp [firstFault_eq_firstFailing, stepChecks, h]

/-- An operand past the end of the memory is reported with the first address outside it, whichever operand it is (R190). -/
theorem firstFault_of_operand_pastEnd (hop : s.byteAtPc 0 = opcodeOf k) (hpc : 255 < s.pc.toNat + k.arity) :
    firstFault s = some (.boundsOperand 256) := by
  have hlt := s.pc.isLt
  have harity := k.arity_le_two
  simp only [firstFault_eq_firstFailing, stepChecks, hop, lookupOpcode_opcodeOf, operandCount_opcodeOf, List.cons_append,
    firstFailing_cons, Option.isNone_some, decide_eq_true_eq]
  by_cases hlast : s.pc.toNat = 255
  · have hone : 1 ≤ k.arity := by omega
    simp [hlast, hone]
  · obtain ⟨hpc', htwo⟩ : s.pc.toNat = 254 ∧ k.arity = 2 := by omega
    simp [hpc', htwo]

/-- With every operand in the memory the fetch's checks pass, and the operation's own are left (R190). -/
theorem firstFault_of_operands_fit (hop : s.byteAtPc 0 = opcodeOf k) (hpc : s.pc.toNat + k.arity ≤ 255) :
    firstFault s = firstFailing (executionChecks s k) := by
  have hfetch (n : Nat) : ¬ (n ≤ k.arity ∧ 255 < s.pc.toNat + n) := by omega
  rw [firstFailing_executionChecks hop]
  simp only [firstFault_eq_firstFailing, stepChecks, hop, hfetch, lookupOpcode_opcodeOf, operandCount_opcodeOf,
    List.cons_append, List.nil_append, firstFailing_cons, Option.isNone_some, decide_false, Bool.false_eq_true, if_false]

/-- Where the first failing check of a step comes from: the opcode byte, an operand's address, or the operation's own
checks (R190). -/
theorem firstFault_cases (s : State) :
    (lookupOpcode (s.byteAtPc 0) = none ∧ firstFault s = some (.illegalOpcode (s.byteAtPc 0))) ∨
      ∃ k, s.byteAtPc 0 = opcodeOf k ∧
        ((255 < s.pc.toNat + k.arity ∧ firstFault s = some (.boundsOperand 256)) ∨
         (s.pc.toNat + k.arity ≤ 255 ∧ firstFault s = firstFailing (executionChecks s k))) := by
  cases hlook : lookupOpcode (s.byteAtPc 0) with
  | none => exact .inl ⟨rfl, firstFault_of_lookupOpcode_eq_none hlook⟩
  | some k =>
    have hop := lookupOpcode_eq_some_iff.mp hlook
    rcases Nat.lt_or_ge 255 (s.pc.toNat + k.arity) with hpc | hpc
    · exact .inr ⟨k, hop, .inl ⟨hpc, firstFault_of_operand_pastEnd hop hpc⟩⟩
    · exact .inr ⟨k, hop, .inr ⟨hpc, firstFault_of_operands_fit hop hpc⟩⟩

/-! ## A handler's lines, as checks -/

/-- The status `commit` leaves (R90). -/
def stagedStatus : Except FaultCause State → RunStatus
  | .ok t => t.status
  | .error c => .faulted c

theorem commit_status (s : State) (staged : Except FaultCause State) :
    ∃ t, commit s staged = .next t ∧ t.status = stagedStatus staged := by
  cases staged with
  | ok t => exact ⟨t, rfl, rfl⟩
  | error c => exact ⟨takeFault c s, rfl, rfl⟩

variable {α : Type} {done : RunStatus} {checks : List Check}

/-- A computation makes one check: it raises the check's cause where the check fails and has a value where it passes. -/
def Performs (check : Check) (e : Except FaultCause α) : Prop :=
  (check.1 = true ∧ e = .error check.2) ∨ (check.1 = false ∧ ∃ a, e = .ok a)

theorem performs_regIdx (v : Byte) : Performs (checkReg v) (regIdx (.ofByte v)) := by
  obtain ⟨h, hr⟩ | ⟨h, hr⟩ := regIdx_ofByte_cases v
  · exact .inr ⟨decide_eq_false (by omega), _, hr⟩
  · exact .inl ⟨decide_eq_true h, hr⟩

theorem performs_spDec (s : State) : Performs (checkSpDec s) (spDec s) := by
  obtain ⟨h, hr⟩ | ⟨h, hr, -⟩ := spDec_cases s
  · exact .inl ⟨decide_eq_true (sp_eq_zero_iff.mp h), hr⟩
  · exact .inr ⟨decide_eq_false (mt sp_eq_zero_iff.mpr h), _, hr⟩

theorem performs_spInc (s : State) : Performs (decide (s.sp.toNat = 255), .boundsStack 256) (spInc s) := by
  obtain ⟨h, hr⟩ | ⟨h, hr, -⟩ := spInc_cases s
  · exact .inl ⟨decide_eq_true (sp_eq_255_iff.mp h), hr⟩
  · exact .inr ⟨decide_eq_false (mt sp_eq_255_iff.mpr h), _, hr⟩

/-- A handler's staged result makes the checks in their order: the first that fails is its cause, and the status is `done`
where none fails. -/
def Makes (checks : List Check) (done : RunStatus) (staged : Except FaultCause State) : Prop :=
  stagedStatus staged = statusAfter done (firstFailing checks)

/-- A line that makes a check comes before the checks of the lines after it. -/
theorem Performs.bind {check : Check} {e : Except FaultCause α} {f : α → Except FaultCause State}
    (he : Performs check e) (hf : ∀ a, Makes checks done (f a)) : Makes (check :: checks) done (e >>= f) := by
  obtain ⟨fails, c⟩ := check
  obtain ⟨rfl, rfl⟩ | ⟨rfl, a, rfl⟩ := he
  · simp [Makes, stagedStatus, statusAfter]
  · simpa [Makes] using hf a

/-- A line that raises a cause under a condition is a check of that condition. -/
theorem makes_guard {p : Prop} [Decidable p] {fails : Bool} {rest : Except FaultCause State} (hp : p ↔ fails = true)
    (hrest : Makes checks done rest) : Makes ((fails, c) :: checks) done (if p then .error c else rest) := by
  by_cases h : p
  · simp [Makes, stagedStatus, statusAfter, h, hp.mp h]
  · simpa [Makes, h, mt hp.mpr h] using hrest

/-- The advance at the end of a handler that has not moved the pc is the last check (R86). -/
theorem makes_advance {n : Nat} {u : State} (hpc : u.pc = s.pc) :
    Makes [checkAdvance s n] u.status (.ok (advanceSequential n u)) := by
  rw [checkAdvance, ← hpc]
  obtain ⟨h, hadv⟩ | ⟨h, hadv⟩ := advanceSequential_cases n u
  · simp [Makes, stagedStatus, statusAfter, hadv, Nat.not_lt.mpr h]
  · simp [Makes, stagedStatus, statusAfter, hadv, h]

/-! ## The status of a step -/

/-- The status an operation leaves where none of its checks fails. -/
def completedStatus (s : State) : OpKind → RunStatus
  | .hlt => .halted
  | _ => s.status

theorem completedStatus_of_opcodeOf (hrun : s.status = .running) (hop : s.byteAtPc 0 = opcodeOf k) :
    completedStatus s k = if s.byteAtPc 0 = 0x01 then .halted else .running := by
  cases k <;> simp [completedStatus, hop, hrun, opcodeOf]

/-- Every handler makes its operation's checks, line by line (R190). -/
theorem step_makes_executionChecks (hrun : s.status = .running) (hop : s.byteAtPc 0 = opcodeOf k)
    (hpc : s.pc.toNat + k.arity ≤ 255) :
    ∃ staged, step s = commit s staged ∧ Makes (executionChecks s k) (completedStatus s k) staged := by
  cases k with
  | hlt => exact ⟨.ok s.halt, step_of_decodeOperands hrun hop rfl, rfl⟩
  | ldi =>
    refine ⟨_, step_of_decodeF2RI (k := .ldi) rfl hrun hop hpc, ?_⟩
    exact (performs_regIdx _).bind fun _ => makes_advance rfl
  | prn =>
    refine ⟨_, step_of_decodeF1R (k := .prn) rfl hrun hop hpc, ?_⟩
    exact (performs_regIdx _).bind fun _ => makes_advance rfl
  | mul =>
    refine ⟨_, step_of_decodeF2RR (k := .mul) rfl hrun hop hpc, ?_⟩
    exact (performs_regIdx _).bind fun _ => (performs_regIdx _).bind fun _ => makes_advance rfl
  | add =>
    refine ⟨_, step_of_decodeF2RR (k := .add) rfl hrun hop hpc, ?_⟩
    exact (performs_regIdx _).bind fun _ => (performs_regIdx _).bind fun _ => makes_advance rfl
  | push =>
    refine ⟨_, step_of_decodeF1R (k := .push) rfl hrun hop hpc, ?_⟩
    refine (performs_spDec s).bind fun _ => (performs_regIdx _).bind fun _ => ?_
    rw [memWrite_byte, ok_bind]
    exact makes_advance rfl
  | pop =>
    refine ⟨_, step_of_decodeF1R (k := .pop) rfl hrun hop hpc, ?_⟩
    refine makes_guard (stackEmpty_iff.trans decide_eq_true_iff.symm) ((performs_regIdx _).bind fun _ => ?_)
    rw [memRead_byte, ok_bind]
    exact makes_advance rfl
  | call =>
    refine ⟨_, step_of_decodeF1R (k := .call) rfl hrun hop hpc, ?_⟩
    refine (performs_spDec s).bind fun _ => makes_guard decide_eq_true_iff.symm ((performs_regIdx _).bind fun _ => ?_)
    rw [memWrite_byte, ok_bind]
    rfl
  | ret =>
    refine ⟨_, step_of_decodeOperands (k := .ret) hrun hop rfl, ?_⟩
    rw [memRead_byte, ok_bind]
    exact (performs_spInc s).bind fun _ => rfl
  | jmp =>
    refine ⟨_, step_of_decodeF1R (k := .jmp) rfl hrun hop hpc, ?_⟩
    exact (performs_regIdx _).bind fun _ => rfl

/-- The status a step of a running machine leaves is read off R190's list. -/
theorem step_status_firstFault (hrun : s.status = .running) :
    ∃ t, step s = .next t ∧
      t.status = statusAfter (if s.byteAtPc 0 = 0x01 then .halted else .running) (firstFault s) := by
  obtain ⟨hlook, hfirst⟩ | ⟨k, hop, ⟨hpc, hfirst⟩ | ⟨hpc, hfirst⟩⟩ := firstFault_cases s
  · exact ⟨_, step_of_lookupOpcode_eq_none hrun hlook, by rw [hfirst]; rfl⟩
  · exact ⟨_, step_of_operand_pastEnd hrun hop hpc, by rw [hfirst]; rfl⟩
  · obtain ⟨staged, hstep, hmakes⟩ := step_makes_executionChecks hrun hop hpc
    rw [hstep, hfirst, ← completedStatus_of_opcodeOf hrun hop, ← hmakes]
    exact commit_status s staged

/-- A step records a cause exactly where the first failing check reports it. -/
theorem status_eq_faulted_iff {t : State} (hrun : s.status = .running) (hstep : step s = .next t) :
    t.status = .faulted c ↔ firstFault s = some c := by
  obtain ⟨u, hu, hstatus⟩ := step_status_firstFault hrun
  cases hu.symm.trans hstep
  rw [hstatus]
  exact statusAfter_eq_faulted_iff (by split <;> nofun)

/-! ## Which checks report a cause -/

/-- The causes that the checks of some operation report; the fetch reports the others, and nothing ALU_UNSUPPORTED. -/
def FaultCause.ofExecution : FaultCause → Bool
  | .stackUnderflow _ | .boundsStack _ | .boundsNextPc _ | .illegalRegister _ => true
  | .illegalOpcode _ | .boundsOperand _ | .aluUnsupported => false

theorem ofExecution_of_executionChecks (h : firstFailing (executionChecks s k) = some c) : c.ofExecution = true := by
  have hall : ∀ check ∈ executionChecks s k, check.2.ofExecution = true := by
    cases k <;> simp [executionChecks, checkReg, checkSpDec, checkAdvance, FaultCause.ofExecution]
  obtain ⟨check, hmem, rfl⟩ := exists_mem_of_firstFailing h
  exact hall check hmem

/-- A cause of execution is reported by the operation's own checks, once all operands lie in the memory. -/
theorem firstFault_eq_some_iff_of_ofExecution (hc : c.ofExecution = true) :
    firstFault s = some c ↔
      ∃ k, s.byteAtPc 0 = opcodeOf k ∧ s.pc.toNat + k.arity ≤ 255 ∧ firstFailing (executionChecks s k) = some c := by
  constructor
  · intro h
    obtain ⟨-, hfirst⟩ | ⟨k, hop, ⟨-, hfirst⟩ | ⟨hpc, hfirst⟩⟩ := firstFault_cases s
    · cases hfirst.symm.trans h
      cases hc
    · cases hfirst.symm.trans h
      cases hc
    · exact ⟨k, hop, hpc, hfirst.symm.trans h⟩
  · rintro ⟨k, hop, hpc, h⟩
    exact (firstFault_of_operands_fit hop hpc).trans h

theorem firstFault_eq_illegalOpcode_iff {v : Byte} :
    firstFault s = some (.illegalOpcode v) ↔ v = s.byteAtPc 0 ∧ lookupOpcode (s.byteAtPc 0) = none := by
  constructor
  · intro h
    obtain ⟨hlook, hfirst⟩ | ⟨k, -, ⟨-, hfirst⟩ | ⟨-, hfirst⟩⟩ := firstFault_cases s
    · cases hfirst.symm.trans h
      exact ⟨rfl, hlook⟩
    · cases hfirst.symm.trans h
    · cases ofExecution_of_executionChecks (hfirst.symm.trans h)
  · rintro ⟨rfl, hlook⟩
    exact firstFault_of_lookupOpcode_eq_none hlook

theorem firstFault_eq_boundsOperand_iff {addr : Nat} :
    firstFault s = some (.boundsOperand addr) ↔
      addr = 256 ∧ ∃ k, s.byteAtPc 0 = opcodeOf k ∧ 255 < s.pc.toNat + k.arity := by
  constructor
  · intro h
    obtain ⟨-, hfirst⟩ | ⟨k, hop, ⟨hpc, hfirst⟩ | ⟨-, hfirst⟩⟩ := firstFault_cases s
    · cases hfirst.symm.trans h
    · cases hfirst.symm.trans h
      exact ⟨rfl, k, hop, hpc⟩
    · cases ofExecution_of_executionChecks (hfirst.symm.trans h)
  · rintro ⟨rfl, k, hop, hpc⟩
    exact firstFault_of_operand_pastEnd hop hpc

theorem firstFault_ne_aluUnsupported (s : State) : firstFault s ≠ some .aluUnsupported := by
  intro h
  obtain ⟨-, hfirst⟩ | ⟨k, -, ⟨-, hfirst⟩ | ⟨-, hfirst⟩⟩ := firstFault_cases s
  · cases hfirst.symm.trans h
  · cases hfirst.symm.trans h
  · cases ofExecution_of_executionChecks (hfirst.symm.trans h)

theorem executionChecks_stackUnderflow_iff {v : Byte} :
    firstFailing (executionChecks s k) = some (.stackUnderflow v) ↔ k = .pop ∧ 0xF4 ≤ s.sp.toNat ∧ s.sp = v := by
  cases k <;> simp [executionChecks, checkReg, checkSpDec, checkAdvance, ite_eq_iff]

theorem executionChecks_boundsStack_iff {value : Int} :
    firstFailing (executionChecks s k) = some (.boundsStack value) ↔
      ((k = .push ∨ k = .call) ∧ s.sp.toNat = 0 ∧ -1 = value) ∨ (k = .ret ∧ s.sp.toNat = 255 ∧ 256 = value) := by
  cases k <;> simp [executionChecks, checkReg, checkSpDec, checkAdvance, ite_eq_iff]

/-- The operation uses operand a as a register, and the checks before that use pass (R187). -/
def ReachesOperandA (s : State) : OpKind → Prop
  | .hlt | .ret => False
  | .ldi | .prn | .mul | .add | .jmp => True
  | .push => s.sp.toNat ≠ 0
  | .pop => s.sp.toNat < 0xF4
  | .call => s.sp.toNat ≠ 0 ∧ s.pc.toNat + 2 ≤ 255

theorem executionChecks_illegalRegister_iff {v : Byte} :
    firstFailing (executionChecks s k) = some (.illegalRegister v) ↔
      (ReachesOperandA s k ∧ 7 < (s.byteAtPc 1).toNat ∧ s.byteAtPc 1 = v) ∨
      ((k = .mul ∨ k = .add) ∧ (s.byteAtPc 1).toNat ≤ 7 ∧ 7 < (s.byteAtPc 2).toNat ∧ s.byteAtPc 2 = v) := by
  cases k <;> simp [executionChecks, checkReg, checkSpDec, checkAdvance, ReachesOperandA, ite_eq_iff, and_assoc]

/-! ## The opcode bytes of the operations a cause's rule names -/

theorem mem_map_opcodeOf {op : Byte} {kinds : List OpKind} :
    op ∈ kinds.map opcodeOf ↔ ∃ k, op = opcodeOf k ∧ k ∈ kinds := by
  simp only [List.mem_map, eq_comm, and_comm]

theorem one_le_arity_iff : 1 ≤ k.arity ↔ k ∈ [.ldi, .prn, .mul, .add, .push, .pop, .call, .jmp] := by
  cases k <;> decide

theorem two_le_arity_iff : 2 ≤ k.arity ↔ k ∈ [.ldi, .mul, .add] := by
  cases k <;> decide

/-- The opcode bytes of the operations with operands (R184). -/
theorem mem_opcodes_one_le_arity_iff {op : Byte} :
    op ∈ [0x82, 0x47, 0xA2, 0xA0, 0x45, 0x46, 0x50, 0x54] ↔ ∃ k, op = opcodeOf k ∧ 1 ≤ k.arity := by
  simp only [one_le_arity_iff]
  exact mem_map_opcodeOf (kinds := [.ldi, .prn, .mul, .add, .push, .pop, .call, .jmp])

/-- The opcode bytes of the operations with two operands (R184). -/
theorem mem_opcodes_two_le_arity_iff {op : Byte} :
    op ∈ [0x82, 0xA2, 0xA0] ↔ ∃ k, op = opcodeOf k ∧ 2 ≤ k.arity := by
  simp only [two_le_arity_iff]
  exact mem_map_opcodeOf (kinds := [.ldi, .mul, .add])

/-- The instructions that reach the use of operand a, by opcode byte (R187). -/
theorem exists_reachesOperandA_iff :
    (∃ k, s.byteAtPc 0 = opcodeOf k ∧ s.pc.toNat + k.arity ≤ 255 ∧ ReachesOperandA s k) ↔
      (s.byteAtPc 0 ∈ [0x82, 0xA2, 0xA0] ∧ s.pc.toNat ≤ 253) ∨
      (s.byteAtPc 0 ∈ [0x47, 0x54] ∧ s.pc.toNat ≤ 254) ∨
      (s.byteAtPc 0 = 0x45 ∧ s.pc.toNat ≤ 254 ∧ 1 ≤ s.sp.toNat) ∨
      (s.byteAtPc 0 = 0x46 ∧ s.pc.toNat ≤ 254 ∧ s.sp.toNat < 0xF4) ∨
      (s.byteAtPc 0 = 0x50 ∧ s.pc.toNat ≤ 253 ∧ 1 ≤ s.sp.toNat) := by
  constructor
  · rintro ⟨k, hop, hpc, hreach⟩
    cases k with
    | hlt | ret => cases hreach
    | ldi | mul | add => exact .inl ⟨by simp [hop, opcodeOf], Nat.le_of_add_le_add_right hpc⟩
    | prn | jmp => exact .inr (.inl ⟨by simp [hop, opcodeOf], Nat.le_of_add_le_add_right hpc⟩)
    | push => exact .inr (.inr (.inl ⟨hop, Nat.le_of_add_le_add_right hpc, Nat.pos_of_ne_zero hreach⟩))
    | pop => exact .inr (.inr (.inr (.inl ⟨hop, Nat.le_of_add_le_add_right hpc, hreach⟩)))
    | call =>
      obtain ⟨hsp, hret⟩ := hreach
      exact .inr (.inr (.inr (.inr ⟨hop, Nat.le_of_add_le_add_right hret, Nat.pos_of_ne_zero hsp⟩)))
  · rintro (⟨hop, hpc⟩ | ⟨hop, hpc⟩ | ⟨hop, hpc, hsp⟩ | ⟨hop, hpc, hsp⟩ | ⟨hop, hpc, hsp⟩)
    · obtain hop | hop | hop : s.byteAtPc 0 = 0x82 ∨ s.byteAtPc 0 = 0xA2 ∨ s.byteAtPc 0 = 0xA0 := by simpa using hop
      · exact ⟨.ldi, hop, Nat.add_le_add_right hpc 2, trivial⟩
      · exact ⟨.mul, hop, Nat.add_le_add_right hpc 2, trivial⟩
      · exact ⟨.add, hop, Nat.add_le_add_right hpc 2, trivial⟩
    · obtain hop | hop : s.byteAtPc 0 = 0x47 ∨ s.byteAtPc 0 = 0x54 := by simpa using hop
      · exact ⟨.prn, hop, Nat.add_le_add_right hpc 1, trivial⟩
      · exact ⟨.jmp, hop, Nat.add_le_add_right hpc 1, trivial⟩
    · exact ⟨.push, hop, Nat.add_le_add_right hpc 1, Nat.ne_of_gt hsp⟩
    · exact ⟨.pop, hop, Nat.add_le_add_right hpc 1, hsp⟩
    · exact ⟨.call, hop, Nat.add_le_add_right (Nat.le_succ_of_le hpc) 1, Nat.ne_of_gt hsp, Nat.add_le_add_right hpc 2⟩

end Sys2Proof.Machine

namespace Sys2Proof.Proofs

open Sys2Proof.Machine

/-- Settles O37: the fetch makes the first checks of R190's list, and each handler's lines are the others. -/
theorem firstFailingCheckIsTheStatus : Obligations.FirstFailingCheckIsTheStatus :=
  fun _ => step_status_firstFault

/-- Settles O30: recognition reports the cause, no later check does, and the fault of that fetch writes only the status. -/
theorem illegalOpcodeRaisedExactlyForUnknownBytes : Obligations.IllegalOpcodeRaisedExactlyForUnknownBytes := by
  intro s t v hrun hstep
  rw [status_eq_faulted_iff hrun hstep, firstFault_eq_illegalOpcode_iff]
  refine ⟨and_congr_right fun _ => lookupOpcode_eq_none_iff, ?_⟩
  rintro ⟨rfl, hlook⟩
  cases (step_of_lookupOpcode_eq_none hrun hlook).symm.trans hstep
  rfl

/-- Settles O31: the empty-stack test is POP's first check after its operand's address, and no other operation's. -/
theorem stackUnderflowRaisedExactlyByPop : Obligations.StackUnderflowRaisedExactlyByPop := by
  intro s t v hrun hstep
  rw [status_eq_faulted_iff hrun hstep, firstFault_eq_some_iff_of_ofExecution rfl]
  simp only [executionChecks_stackUnderflow_iff]
  constructor
  · rintro ⟨_, hop, hpc, rfl, hsp, rfl⟩
    exact ⟨hop, Nat.le_of_add_le_add_right hpc, hsp, rfl⟩
  · rintro ⟨hop, hpc, hsp, rfl⟩
    exact ⟨.pop, hop, Nat.add_le_add_right hpc 1, rfl, hsp, rfl⟩

/-- Settles O32: an operation's last operand lies past the end only from pc 255, or with two operands from pc 254. -/
theorem boundsOperandRaisedExactlyAtTheEndOfMemory : Obligations.BoundsOperandRaisedExactlyAtTheEndOfMemory := by
  intro s t addr hrun hstep
  rw [status_eq_faulted_iff hrun hstep, firstFault_eq_boundsOperand_iff, mem_opcodes_one_le_arity_iff,
    mem_opcodes_two_le_arity_iff]
  refine and_congr_right fun _ => ⟨?_, ?_⟩
  · rintro ⟨k, hop, hpc⟩
    have hlt := s.pc.isLt
    have harity := k.arity_le_two
    by_cases hlast : s.pc.toNat = 255
    · exact .inl ⟨hlast, k, hop, by omega⟩
    · exact .inr ⟨by omega, k, hop, by omega⟩
  · rintro (⟨hpc, k, hop, harity⟩ | ⟨hpc, k, hop, harity⟩)
    · exact ⟨k, hop, by omega⟩
    · exact ⟨k, hop, by omega⟩

/-- Settles O33: the stack bound is the first check of PUSH, CALL and RET after the operand's address. -/
theorem boundsStackRaisedExactlyAtTheEndsOfTheStack : Obligations.BoundsStackRaisedExactlyAtTheEndsOfTheStack := by
  intro s t value hrun hstep
  rw [status_eq_faulted_iff hrun hstep, firstFault_eq_some_iff_of_ofExecution rfl]
  simp only [executionChecks_boundsStack_iff]
  constructor
  · rintro ⟨k, hop, hpc, ⟨rfl | rfl, hsp, rfl⟩ | ⟨rfl, hsp, rfl⟩⟩
    · exact .inl ⟨rfl, by simp [hop, opcodeOf], Nat.le_of_add_le_add_right hpc, hsp⟩
    · exact .inl ⟨rfl, by simp [hop, opcodeOf], Nat.le_of_add_le_add_right hpc, hsp⟩
    · exact .inr ⟨rfl, hop, hsp⟩
  · rintro (⟨rfl, hop, hpc, hsp⟩ | ⟨rfl, hop, hsp⟩)
    · obtain hop | hop : s.byteAtPc 0 = 0x45 ∨ s.byteAtPc 0 = 0x50 := by simpa using hop
      · exact ⟨.push, hop, Nat.add_le_add_right hpc 1, .inl ⟨.inl rfl, hsp, rfl⟩⟩
      · exact ⟨.call, hop, Nat.add_le_add_right hpc 1, .inl ⟨.inr rfl, hsp, rfl⟩⟩
    · exact ⟨.ret, hop, Nat.le_of_lt_succ s.pc.isLt, .inr ⟨rfl, hsp, rfl⟩⟩

/-- Settles O35: operand a is reported where its use is reached, operand b of MUL and ADD once a has passed. -/
theorem illegalRegisterRaisedExactlyWhereUsed : Obligations.IllegalRegisterRaisedExactlyWhereUsed := by
  intro s t v hrun hstep
  rw [status_eq_faulted_iff hrun hstep, firstFault_eq_some_iff_of_ofExecution rfl, ← exists_reachesOperandA_iff]
  simp only [executionChecks_illegalRegister_iff]
  constructor
  · rintro ⟨k, hop, hpc, ⟨hreach, hv, rfl⟩ | ⟨rfl | rfl, ha, hv, rfl⟩⟩
    · exact .inl ⟨rfl, hv, k, hop, hpc, hreach⟩
    · exact .inr ⟨rfl, hv, by simp [hop, opcodeOf], Nat.le_of_add_le_add_right hpc, Nat.lt_succ_of_le ha⟩
    · exact .inr ⟨rfl, hv, by simp [hop, opcodeOf], Nat.le_of_add_le_add_right hpc, Nat.lt_succ_of_le ha⟩
  · rintro (⟨rfl, hv, k, hop, hpc, hreach⟩ | ⟨rfl, hv, hop, hpc, ha⟩)
    · exact ⟨k, hop, hpc, .inl ⟨hreach, hv, rfl⟩⟩
    · obtain hop | hop : s.byteAtPc 0 = 0xA2 ∨ s.byteAtPc 0 = 0xA0 := by simpa using hop
      · exact ⟨.mul, hop, Nat.add_le_add_right hpc 2, .inr ⟨.inl rfl, Nat.le_of_lt_succ ha, hv, rfl⟩⟩
      · exact ⟨.add, hop, Nat.add_le_add_right hpc 2, .inr ⟨.inr rfl, Nat.le_of_lt_succ ha, hv, rfl⟩⟩

/-- Settles O36: no check of R190's list reports ALU_UNSUPPORTED. -/
theorem aluUnsupportedIsUnreachable : Obligations.AluUnsupportedIsUnreachable :=
  fun s _ hrun hstep hfault => firstFault_ne_aluUnsupported s ((status_eq_faulted_iff hrun hstep).mp hfault)

end Sys2Proof.Proofs

/-! PROOFS. Reset and the image (spec/70_reset_and_hazards.md R210, R211): what reset puts in every part of the state, which
bytes stand in the memory after a placement, and which images the loader refuses. -/

namespace Sys2Proof.Machine

/-! ## Reset -/

/-- Reset's memory lists no cell, so every address reads 0 (R30). -/
@[simp] theorem State.reset_ram_read (a : Nat) : State.reset.ram.read a = 0 := rfl

theorem State.reset_reg (r : Fin Config.numRegs) : State.reset.reg r = 0 := by
  revert r
  decide

/-! ## Placing bytes -/

section
variable (m : Memory) (bytes : List Byte) {addr : Nat}

theorem placeBytes_cons (v : Byte) (h : addr ≤ 255) :
    placeBytes m addr (v :: bytes) = placeBytes (m.write addr v) (addr + 1) bytes := if_pos h

theorem placeBytes_cons_pastEnd (v : Byte) (h : 255 < addr) : placeBytes m addr (v :: bytes) = m :=
  if_neg (Nat.not_le.mpr h)

/-- A placement writes only the addresses its bytes take up. -/
theorem read_placeBytes_outside {a : Nat} (h : a < addr ∨ addr + bytes.length ≤ a) :
    (placeBytes m addr bytes).read a = m.read a := by
  induction bytes generalizing m addr with
  | nil => rfl
  | cons v rest ih =>
    rw [List.length_cons] at h
    rcases Nat.lt_or_ge 255 addr with hend | hfits
    · rw [placeBytes_cons_pastEnd m rest v hend]
    · rw [placeBytes_cons m rest v hfits, ih (m.write addr v) (by omega), Memory.read_write_other m v (by omega)]

/-- Bytes that fit in the memory stand, in their order, at the addresses from the placement's start: a later byte never
overwrites an earlier one. -/
theorem read_placeBytes_inside (hwf : m.wf = true) (hfits : addr + bytes.length ≤ 256) {i : Nat} (hi : i < bytes.length) :
    (placeBytes m addr bytes).read (addr + i) = bytes[i] := by
  induction bytes generalizing m addr i with
  | nil => exact absurd hi (Nat.not_lt_zero i)
  | cons v rest ih =>
    rw [List.length_cons] at hfits hi
    rw [placeBytes_cons m rest v (by omega)]
    cases i with
    | zero =>
      calc (placeBytes (m.write addr v) (addr + 1) rest).read addr
        _ = (m.write addr v).read addr := read_placeBytes_outside _ rest (.inl (Nat.lt_succ_self addr))
        _ = v := Memory.read_write_same addr v hwf
    | succ j =>
      have hplaced := ih (m.write addr v) (addr := addr + 1) (Memory.write_wf v hwf (by omega)) (by omega)
        (Nat.lt_of_succ_lt_succ hi)
      rwa [Nat.add_right_comm, Nat.add_assoc] at hplaced

end

/-! ## Loading an image -/

section
variable {image : List Nat}

theorem imageOk_iff : imageOk image = true ↔ image.length ≤ 256 ∧ ∀ v ∈ image, v < 256 := by
  simp [imageOk]

/-- R211's refusal, in the terms of its two conditions. -/
theorem loadImage_eq_none_iff : loadImage image = none ↔ 256 < image.length ∨ ∃ v ∈ image, 255 < v := by
  rw [← Option.not_isSome_iff_eq_none, loadImage_isSome, imageOk_iff]
  simp only [not_and_or, not_le, not_forall, not_lt, exists_prop, Nat.succ_le_iff]

theorem loadImage_eq_some_iff {s : State} :
    loadImage image = some s ↔
      imageOk image = true ∧ s = { State.reset with ram := placeBytes State.reset.ram 0 (image.map lowByte) } := by
  rw [loadImage, Option.ite_none_right_eq_some, Option.some.injEq, eq_comm (a := s)]

theorem loadImage_nil : loadImage [] = some State.reset := rfl

/-- An accepted value is its own low byte, so the loaded cells hold the image itself (R211). -/
theorem read_loadImage_inside {s : State} (h : loadImage image = some s) {i : Nat} (hi : i < image.length) :
    (s.ram.read i).toNat = image[i] := by
  obtain ⟨hok, rfl⟩ := loadImage_eq_some_iff.mp h
  obtain ⟨hlen, hvalues⟩ := imageOk_iff.mp hok
  have hplaced := read_placeBytes_inside State.reset.ram (image.map lowByte) reset_ram_wf (addr := 0) (i := i)
    (by simpa using hlen) (by simpa using hi)
  rw [Nat.zero_add, List.getElem_map] at hplaced
  rw [hplaced, toNat_lowByte (hvalues _ (List.getElem_mem hi))]

theorem read_loadImage_outside {s : State} (h : loadImage image = some s) {i : Nat} (hi : image.length ≤ i) :
    s.ram.read i = 0 := by
  obtain ⟨-, rfl⟩ := loadImage_eq_some_iff.mp h
  have hkept := read_placeBytes_outside State.reset.ram (image.map lowByte) (addr := 0) (a := i) (.inr (by simpa using hi))
  rw [hkept, State.reset_ram_read]

end

/-- From bare reset the first step fetches the 0 at address 0, which is no opcode (R211, R68). -/
theorem step_reset : step State.reset = .next (takeFault (.illegalOpcode 0x00) State.reset) :=
  step_of_lookupOpcode_eq_none rfl (lookupOpcode_eq_none_iff.mpr (by decide))

end Sys2Proof.Machine

namespace Sys2Proof.Proofs

open Sys2Proof.Machine

/-- Settles O2: bytes placed in order never overwrite one another, and the image conditions make every value a byte. -/
theorem loaderPlacesTheImageFromAddressZero : Obligations.LoaderPlacesTheImageFromAddressZero := by
  intro image
  refine ⟨loadImage_eq_none_iff, fun s hload =>
    ⟨fun _ => read_loadImage_inside hload, fun _ => read_loadImage_outside hload, ?rest, ?empty⟩⟩
  case rest =>
    obtain ⟨-, rfl⟩ := loadImage_eq_some_iff.mp hload
    rfl
  case empty =>
    rintro rfl
    obtain rfl : State.reset = s := Option.some.inj (loadImage_nil.symm.trans hload)
    exact step_reset

/-- Settles O1: each part is the value `State.reset` gives it, the memory and the registers read by lemmas of their own. -/
theorem resetGivesEveryPartItsValue : Obligations.ResetGivesEveryPartItsValue :=
  ⟨fun a _ => State.reset_ram_read a, State.reset_reg, rfl, rfl, rfl, rfl⟩

end Sys2Proof.Proofs

/-! PROOFS. Encoding (spec/30_encoding.md): the decoder and the encoder are inverse to each other, on operands, on
instructions and on the bytes of the memory; so a placed word is the next instruction (spec/70_reset_and_hazards.md R211). -/

namespace Sys2Proof

/-! ## Register operands and their bytes -/

@[simp] theorem RegOperand.wellFormed_ofByte (v : Byte) : (RegOperand.ofByte v).wellFormed = true := by
  by_cases h : v.toNat < 8
  · rw [RegOperand.ofByte_of_lt h]
    rfl
  · rw [RegOperand.ofByte_of_not_lt h]
    exact decide_eq_true (Nat.le_of_not_lt h)

@[simp] theorem RegOperand.toByte_ofByte (v : Byte) : (RegOperand.ofByte v).toByte = v := by
  by_cases h : v.toNat < 8
  · rw [RegOperand.ofByte_of_lt h]
    exact lowByte_toNat v
  · rw [RegOperand.ofByte_of_not_lt h]
    rfl

/-- The byte of a register index is the index. -/
theorem RegOperand.toNat_toByte_reg (i : Fin 8) : (RegOperand.reg i).toByte.toNat = i.val :=
  toNat_lowByte (Nat.lt_trans i.isLt (by decide))

/-- An operand that stands for a byte is the operand of that byte (R63). -/
theorem RegOperand.ofByte_toByte {o : RegOperand} (h : o.wellFormed = true) : RegOperand.ofByte o.toByte = o := by
  cases o with
  | reg i =>
    have hval := RegOperand.toNat_toByte_reg i
    rw [RegOperand.ofByte_of_lt (hval ▸ i.isLt)]
    exact congrArg RegOperand.reg (Fin.ext hval)
  | illegal v => exact RegOperand.ofByte_of_not_lt (Nat.not_lt.mpr (of_decide_eq_true h))

/-! ## Instructions and their words -/

theorem decode_opcodeOf_cons (k : OpKind) (bytes : List Byte) :
    decode (opcodeOf k :: bytes) = decodeOperands k bytes :=
  decodeOp_of_lookupOpcode bytes (lookupOpcode_opcodeOf k)

/-- Encoding, then decoding: each format reads back the operand bytes it was given. -/
theorem decode_encode_append {i : Instr} (rest : List Byte) (hwf : i.WellFormed) :
    decode (encode i ++ rest) = .ok i rest := by
  cases i with
  | hlt | ret => rfl
  | ldi a | prn a | push a | pop a | call a | jmp a =>
    rw [encode, List.cons_append, decode_opcodeOf_cons]
    simp [decodeOperands, decodeF1R, decodeF2RI, RegOperand.ofByte_toByte hwf]
  | mul a b | add a b =>
    obtain ⟨ha, hb⟩ := Bool.and_eq_true_iff.mp hwf
    rw [encode, List.cons_append, decode_opcodeOf_cons]
    simp [decodeOperands, decodeF2RR, RegOperand.ofByte_toByte ha, RegOperand.ofByte_toByte hb]

/-- Decoding, then encoding: an operation's operand bytes are those of the instruction they decode to. -/
theorem encode_of_decodeOperands {k : OpKind} {bytes rest : List Byte} {i : Instr}
    (h : decodeOperands k bytes = .ok i rest) : i.WellFormed ∧ opcodeOf k :: bytes = encode i ++ rest := by
  cases k with
  | hlt | ret =>
    obtain ⟨rfl, rfl⟩ := Decoded.ok.inj h
    exact ⟨rfl, rfl⟩
  | prn | push | pop | call | jmp =>
    obtain _ | ⟨a, bytes⟩ := bytes
    · cases h
    · obtain ⟨rfl, rfl⟩ := Decoded.ok.inj h
      simp [Instr.WellFormed, Instr.wellFormed, encode]
  | ldi | mul | add =>
    obtain _ | ⟨a, _ | ⟨b, bytes⟩⟩ := bytes
    · cases h
    · cases h
    · obtain ⟨rfl, rfl⟩ := Decoded.ok.inj h
      simp [Instr.WellFormed, Instr.wellFormed, encode]

theorem encode_of_decode {bytes rest : List Byte} {i : Instr} (h : decode bytes = .ok i rest) :
    i.WellFormed ∧ bytes = encode i ++ rest := by
  obtain _ | ⟨op, bytes⟩ := bytes
  · cases h
  cases hk : lookupOpcode op with
  | none => cases (decodeOp_of_lookupOpcode_eq_none bytes hk).symm.trans h
  | some k =>
    obtain rfl := lookupOpcode_eq_some_iff.mp hk
    exact encode_of_decodeOperands ((decode_opcodeOf_cons k bytes).symm.trans h)

theorem length_encode (i : Instr) : (encode i).length = i.kind.arity + 1 := by
  cases i <;> rfl

theorem decodeTableWord_eq_some_iff {nbits w : Nat} {i : Instr} :
    decodeTableWord nbits w = some i ↔ ∃ rest, decode (tableWordBytes nbits w) = .ok i rest := by
  rw [decodeTableWord]
  cases decode (tableWordBytes nbits w) <;> simp

end Sys2Proof

namespace Sys2Proof.Machine

/-! ## The bytes of the memory from an address -/

theorem getElem?_bytesFrom (m : Memory) {addr j : Nat} (h : addr + j ≤ 255) :
    (bytesFrom m addr)[j]? = some (m.read (addr + j)) := by
  have hj : j < Config.memSize - addr := by
    simp only [Config.memSize]
    omega
  simp [bytesFrom, hj]

/-- Bytes that stand in the memory from an address on are the first ones read from there. -/
theorem bytesFrom_eq_append (m : Memory) (bytes : List Byte) {addr : Nat} (hfits : addr + bytes.length ≤ 256)
    (hread : ∀ (j : Nat) (hj : j < bytes.length), m.read (addr + j) = bytes[j]) :
    bytesFrom m addr = bytes ++ bytesFrom m (addr + bytes.length) := by
  induction bytes generalizing addr with
  | nil => rfl
  | cons v bytes ih =>
    rw [List.length_cons] at hfits
    have hhead : m.read addr = v := hread 0 (Nat.zero_lt_succ _)
    have htail := ih (addr := addr + 1) (by omega) fun j hj => by
      have := hread (j + 1) (Nat.succ_lt_succ hj)
      rwa [← Nat.add_assoc, Nat.add_right_comm] at this
    rw [bytesFrom_eq_cons m (by omega), hhead, htail, List.length_cons, Nat.add_assoc, Nat.add_comm 1]
    rfl

/-- Bytes of which the first ones fit are placed one part after the other. -/
theorem placeBytes_append (m : Memory) (first rest : List Byte) {addr : Nat} (hfits : addr + first.length ≤ 256) :
    placeBytes m addr (first ++ rest) = placeBytes (placeBytes m addr first) (addr + first.length) rest := by
  induction first generalizing m addr with
  | nil => rfl
  | cons v first ih =>
    rw [List.length_cons] at hfits
    rw [List.cons_append, placeBytes_cons _ _ _ (by omega), placeBytes_cons _ _ _ (by omega), ih _ (by omega),
      List.length_cons, Nat.add_assoc, Nat.add_comm 1]

/-- The part that fits is read back from where it was placed, whatever follows it. -/
theorem bytesFrom_placeBytes (m : Memory) (first rest : List Byte) {addr : Nat} (hwf : m.wf = true)
    (hfits : addr + first.length ≤ 256) :
    ∃ after, bytesFrom (placeBytes m addr (first ++ rest)) addr = first ++ after := by
  refine ⟨_, bytesFrom_eq_append _ first hfits fun j hj => ?_⟩
  rw [placeBytes_append m first rest hfits, read_placeBytes_outside _ rest (.inl (by omega)),
    read_placeBytes_inside m first hwf hfits hj]

/-! ## The step of the fetched instruction -/

theorem step_of_fetchDecode {s : State} {i : Instr} (hrun : s.status = .running) (hfetch : fetchDecode s = .ok i) :
    step s = exec i s := by
  simp [step, hrun, hfetch]

theorem step_of_decode {s : State} {i : Instr} {rest : List Byte} (hrun : s.status = .running)
    (hdecode : decode (bytesFrom s.ram s.pc.toNat) = .ok i rest) : step s = exec i s :=
  step_of_fetchDecode hrun (fetchDecode_eq_ok_iff.mpr ⟨rest, hdecode⟩)

end Sys2Proof.Machine

namespace Sys2Proof.Proofs

open Sys2Proof.Machine

/-- Settles O5: each format reads back the operands it was given, the illegal ones too. -/
theorem decodeOfEncodeIsTheInstruction : Obligations.DecodeOfEncodeIsTheInstruction :=
  fun _ rest => decode_encode_append rest

/-- Settles O6: a recognised byte is its operation's opcode byte, and no operand byte is lost. -/
theorem decodedBytesAreTheEncodedWords : Obligations.DecodedBytesAreTheEncodedWords :=
  fun _ _ _ => encode_of_decode

/-- Settles O13: a table word that decodes begins with its instruction's words, which the placement puts at the pc. -/
theorem placedTableWordIsTheNextInstruction : Obligations.PlacedTableWordIsTheNextInstruction := by
  intro s nbits w i hwf hword hpc
  obtain ⟨rest, hdecode⟩ := decodeTableWord_eq_some_iff.mp hword
  obtain ⟨hiwf, hbytes⟩ := encode_of_decode hdecode
  have hfits : s.pc.toNat + (encode i).length ≤ 256 := by
    rw [length_encode]
    omega
  obtain ⟨after, hfetched⟩ := bytesFrom_placeBytes s.ram (encode i) rest hwf hfits
  refine step_of_decode (rest := after) rfl ?_
  rw [State.withFetchWord, hbytes, hfetched, decode_encode_append after hiwf]

/-- Settles O12: the fetch gives exactly the instruction the decoder reads. -/
theorem stepRunsTheDecodedInstruction : Obligations.StepRunsTheDecodedInstruction :=
  fun _ _ _ => step_of_decode

/-- Settles O7: the ten words, evaluated. -/
theorem writtenWordsDecodeAsTheTableSays : Obligations.WrittenWordsDecodeAsTheTableSays := by
  unfold Obligations.WrittenWordsDecodeAsTheTableSays
  decide

end Sys2Proof.Proofs

/-! PROOFS. What a handler can do, said once: it raises a cause that depends on the pc and the sp alone and changes only the
status, or it completes with its instruction's own effect. The frames of the ten instructions are read off that. -/

namespace Sys2Proof

/-- The register operand an instruction loads, if it loads one (R22). -/
def Instr.destination : Instr → Option RegOperand
  | .ldi a _ | .mul a _ | .add a _ | .pop a => some a
  | .hlt | .prn _ | .push _ | .call _ | .ret | .jmp _ => none

end Sys2Proof

namespace Sys2Proof.Machine

/-! ## The effect of each instruction that completes -/

/-- `Completes s i t`: all checks of instruction `i` before its effect pass in `s`, and `t` is what the effect leaves
(spec/41_hlt_ldi_prn.md, spec/42_alu.md, spec/43_stack.md, spec/44_control.md). -/
inductive Completes (s : State) : Instr → State → Prop where
  | hlt : Completes s .hlt s.halt
  | ldi (d : Fin 8) (b : Byte) : Completes s (.ldi (.reg d) b) (advanceSequential 2 (s.setReg d b))
  | prn (r : Fin 8) : Completes s (.prn (.reg r)) (advanceSequential 1 (s.emit (s.reg r)))
  | mul (d r : Fin 8) : Completes s (.mul (.reg d) (.reg r)) (advanceSequential 2 (aluApply .mul d r s))
  | add (d r : Fin 8) : Completes s (.add (.reg d) (.reg r)) (advanceSequential 2 (aluApply .add d r s))
  | push (r : Fin 8) (hsp : s.sp ≠ 0) : Completes s (.push (.reg r))
      (advanceSequential 1 { s with sp := s.sp - 1, ram := s.ram.write (s.sp.toNat - 1) (s.reg r) })
  | pop (d : Fin 8) (hsp : stackEmpty s = false) : Completes s (.pop (.reg d))
      (advanceSequential 1 ((s.setReg d (s.ram.read s.sp.toNat)).setSp (s.sp + 1)))
  | call (r : Fin 8) (hsp : s.sp ≠ 0) (hret : s.pc.toNat + 2 ≤ 255) : Completes s (.call (.reg r))
      { s with sp := s.sp - 1, ram := s.ram.write (s.sp.toNat - 1) (s.pc + 2), pc := s.reg r }
  | ret (hsp : s.sp ≠ 255) : Completes s .ret { s with pc := s.ram.read s.sp.toNat, sp := s.sp + 1 }
  | jmp (r : Fin 8) : Completes s (.jmp (.reg r)) (s.setPc (s.reg r))

variable {i : Instr} {s t : State}

theorem Completes.exec_eq (h : Completes s i t) : exec i s = .next t := by
  cases h with
  | hlt | ldi | prn | mul | add | jmp => rfl
  | push r hsp => exact exec_push_reg r hsp
  | pop d hsp => exact exec_pop_reg d hsp
  | call r hsp hret => exact exec_call_reg r hsp hret
  | ret hsp => exact exec_ret_of_sp_ne_255 hsp

/-- The instruction raises `c` before any effect, in every state with this pc and sp: no check of a handler reads the
registers, the memory, the status or the trace (R190). -/
def Raises (i : Instr) (s : State) (c : FaultCause) : Prop :=
  ∀ s' : State, s'.pc = s.pc → s'.sp = s.sp → exec i s' = .next (takeFault c s')

/-- Everything an instruction can do (R90). -/
theorem exec_cases (i : Instr) (s : State) : (∃ c, Raises i s c) ∨ ∃ t, Completes s i t := by
  cases i with
  | hlt => exact .inr ⟨_, .hlt⟩
  | ldi a b =>
    cases a with
    | reg d => exact .inr ⟨_, .ldi d b⟩
    | illegal v => exact .inl ⟨_, fun s' _ _ => exec_ldi_illegal v b s'⟩
  | prn a =>
    cases a with
    | reg r => exact .inr ⟨_, .prn r⟩
    | illegal v => exact .inl ⟨_, fun s' _ _ => exec_prn_illegal v s'⟩
  | mul a b | add a b =>
    cases a with
    | reg d =>
      cases b with
      | reg r => exact .inr ⟨_, by constructor⟩
      | illegal w => exact .inl ⟨.illegalRegister w, fun _ _ _ => rfl⟩
    | illegal v => exact .inl ⟨.illegalRegister v, fun _ _ _ => rfl⟩
  | push a =>
    by_cases hsp : s.sp = 0
    · exact .inl ⟨_, fun s' _ hsp' => exec_push_of_sp_eq_zero a (hsp'.trans hsp)⟩
    · cases a with
      | reg r => exact .inr ⟨_, .push r hsp⟩
      | illegal v => exact .inl ⟨_, fun s' _ hsp' => exec_push_illegal v (hsp' ▸ hsp)⟩
  | pop a =>
    have hempty' (s' : State) (hsp' : s'.sp = s.sp) : stackEmpty s' = stackEmpty s := by rw [stackEmpty, hsp', stackEmpty]
    cases hempty : stackEmpty s with
    | true =>
      refine .inl ⟨.stackUnderflow s.sp, fun s' _ hsp' => ?_⟩
      rw [← hsp']
      exact exec_pop_of_stackEmpty a ((hempty' s' hsp').trans hempty)
    | false =>
      cases a with
      | reg d => exact .inr ⟨_, .pop d hempty⟩
      | illegal v => exact .inl ⟨_, fun s' _ hsp' => exec_pop_illegal v ((hempty' s' hsp').trans hempty)⟩
  | call a =>
    by_cases hsp : s.sp = 0
    · exact .inl ⟨_, fun s' _ hsp' => exec_call_of_sp_eq_zero a (hsp'.trans hsp)⟩
    rcases Nat.lt_or_ge 255 (s.pc.toNat + 2) with hret | hret
    · refine .inl ⟨.boundsNextPc (s.pc.toNat + 2), fun s' hpc' hsp' => ?_⟩
      rw [← hpc'] at hret ⊢
      exact exec_call_of_return_pastEnd a (hsp' ▸ hsp) hret
    · cases a with
      | reg r => exact .inr ⟨_, .call r hsp hret⟩
      | illegal v => exact .inl ⟨_, fun s' hpc' hsp' => exec_call_illegal v (hsp' ▸ hsp) (hpc' ▸ hret)⟩
  | ret =>
    by_cases hsp : s.sp = 255
    · exact .inl ⟨_, fun s' _ hsp' => exec_ret_of_sp_eq_255 (hsp'.trans hsp)⟩
    · exact .inr ⟨_, .ret hsp⟩
  | jmp a =>
    cases a with
    | reg r => exact .inr ⟨_, .jmp r⟩
    | illegal v => exact .inl ⟨_, fun s' _ _ => exec_jmp_illegal v s'⟩

theorem exec_next_cases (h : exec i s = .next t) :
    (∃ c, Raises i s c ∧ t = takeFault c s) ∨ Completes s i t := by
  obtain ⟨c, hraises⟩ | ⟨u, hcompletes⟩ := exec_cases i s
  · cases (hraises s rfl rfl).symm.trans h
    exact .inl ⟨c, hraises, rfl⟩
  · cases hcompletes.exec_eq.symm.trans h
    exact .inr hcompletes

/-! ## What a completed instruction leaves unchanged -/

/-- AdvanceSequential keeps the status or records its fault (R86). -/
theorem advanceSequential_status (n : Nat) (s : State) :
    (advanceSequential n s).status = s.status ∨ ∃ c, (advanceSequential n s).status = .faulted c := by
  obtain ⟨-, h⟩ | ⟨-, h⟩ := advanceSequential_cases n s
  · exact .inl (by rw [h, State.setPc_status])
  · exact .inr ⟨_, by rw [h, takeFault_status]⟩

@[simp] theorem reg_advanceSequential (n : Nat) (s : State) (r : Fin 8) :
    (advanceSequential n s).reg r = s.reg r := by
  rw [State.reg, advanceSequential_x, State.reg]

@[simp] theorem reg_aluApply (op : AluOp) (d r q : Fin 8) (s : State) :
    (aluApply op d r s).reg q = if d = q then aluResult op (s.reg d) (s.reg r) else s.reg q :=
  State.reg_setReg s d q _

/-- Every instruction but HLT keeps the status or records a fault. -/
theorem exec_status (h : exec i s = .next t) (hne : i ≠ .hlt) : t.status = s.status ∨ ∃ c, t.status = .faulted c := by
  obtain ⟨c, -, rfl⟩ | hcompletes := exec_next_cases h
  · exact .inr ⟨c, rfl⟩
  · cases hcompletes with
    | hlt => exact absurd rfl hne
    | ldi | prn | mul | add | push | pop => exact advanceSequential_status _ _
    | call | ret | jmp => exact .inl rfl

/-- Only PUSH and CALL change the memory, by one byte at the address SpDec gives (R44). -/
theorem exec_ram (h : exec i s = .next t) :
    t.ram = s.ram ∨ (i.kind = .push ∨ i.kind = .call) ∧ s.sp ≠ 0 ∧ ∃ v, t.ram = s.ram.write (s.sp.toNat - 1) v := by
  obtain ⟨c, -, rfl⟩ | hcompletes := exec_next_cases h
  · exact .inl rfl
  · cases hcompletes with
    | hlt | ret | jmp => exact .inl rfl
    | ldi | prn | mul | add | pop => exact .inl (by simp)
    | push r hsp => exact .inr ⟨.inl rfl, hsp, _, advanceSequential_ram _ _⟩
    | call r hsp => exact .inr ⟨.inr rfl, hsp, _, rfl⟩

/-- Only LDI, MUL, ADD and POP change registers (R22). -/
theorem exec_x (h : exec i s = .next t) (hk : i.kind ∉ [.ldi, .mul, .add, .pop]) : t.x = s.x := by
  obtain ⟨c, -, rfl⟩ | hcompletes := exec_next_cases h
  · rfl
  · cases hcompletes with
    | ldi | mul | add | pop => exact absurd (by simp [Instr.kind]) hk
    | hlt | call | ret | jmp => rfl
    | prn | push => simp

/-- Only PUSH, POP, CALL and RET change the stack pointer (R25). -/
theorem exec_sp (h : exec i s = .next t) (hk : i.kind ∉ [.push, .pop, .call, .ret]) : t.sp = s.sp := by
  obtain ⟨c, -, rfl⟩ | hcompletes := exec_next_cases h
  · rfl
  · cases hcompletes with
    | push | pop | call | ret => exact absurd (by simp [Instr.kind]) hk
    | hlt | jmp => rfl
    | ldi | prn | mul | add => simp

/-- Only PRN changes the trace (R27). -/
theorem exec_out (h : exec i s = .next t) (hk : i.kind ≠ .prn) : t.out = s.out := by
  obtain ⟨c, -, rfl⟩ | hcompletes := exec_next_cases h
  · rfl
  · cases hcompletes with
    | prn => exact absurd rfl hk
    | hlt | call | ret | jmp => rfl
    | ldi | mul | add | push | pop => simp

theorem exec_ram_of_kind (h : exec i s = .next t) (hk : i.kind ∉ [.push, .call]) : t.ram = s.ram := by
  obtain hram | ⟨hpush | hcall, -⟩ := exec_ram h
  · exact hram
  · exact absurd (by simp [hpush]) hk
  · exact absurd (by simp [hcall]) hk

theorem reg_eq_of_x_eq (h : t.x = s.x) (r : Fin 8) : t.reg r = s.reg r := by
  rw [State.reg, h, State.reg]

/-- No other register is changed (R22). -/
theorem exec_reg_other {r : Fin 8} (h : exec i s = .next t) (hr : i.destination ≠ some (.reg r)) : t.reg r = s.reg r := by
  obtain ⟨c, -, rfl⟩ | hcompletes := exec_next_cases h
  · rfl
  · cases hcompletes with
    | ldi d | mul d | add d | pop d =>
      have hne : d ≠ r := fun hd => hr (hd ▸ rfl)
      simp [hne]
    | hlt | call | ret | jmp => rfl
    | prn | push => simp [State.reg]

theorem exec_out_prn {a : RegOperand} (h : exec (.prn a) s = .next t) :
    t.out = s.out ∨ ∃ r : Fin 8, a = .reg r ∧ t.out = s.out ++ [s.reg r] := by
  obtain ⟨c, -, rfl⟩ | hcompletes := exec_next_cases h
  · exact .inl rfl
  · cases hcompletes with
    | prn r => exact .inr ⟨r, rfl, by simp⟩

/-- PUSH and CALL move the stack pointer one down, or not at all (R140). -/
theorem exec_sp_store (h : exec i s = .next t) (hk : i.kind = .push ∨ i.kind = .call) :
    t.sp = s.sp ∨ s.sp ≠ 0 ∧ t.sp = s.sp - 1 := by
  obtain ⟨c, -, rfl⟩ | hcompletes := exec_next_cases h
  · exact .inl rfl
  · cases hcompletes with
    | push r hsp => exact .inr ⟨hsp, by simp⟩
    | call r hsp => exact .inr ⟨hsp, rfl⟩
    | hlt | ldi | prn | mul | add | pop | ret | jmp => simp [Instr.kind] at hk

/-- POP and RET move the stack pointer one up, or not at all (R140). -/
theorem exec_sp_load (h : exec i s = .next t) (hk : i.kind = .pop ∨ i.kind = .ret) : t.sp = s.sp ∨ t.sp = s.sp + 1 := by
  obtain ⟨c, -, rfl⟩ | hcompletes := exec_next_cases h
  · exact .inl rfl
  · cases hcompletes with
    | pop => exact .inr (by simp)
    | ret => exact .inr rfl
    | hlt | ldi | prn | mul | add | push | call | jmp => simp [Instr.kind] at hk

end Sys2Proof.Machine

namespace Sys2Proof.Proofs

open Sys2Proof.Machine

/-- Settles O39: the kinds of LDI, MUL and ADD leave sp, out and the memory alone; the written register is Ra. -/
theorem registerWritersFrame : Obligations.RegisterWritersFrame := by
  intro i a b v s t hi h
  have hk : i.kind ∈ [.ldi, .mul, .add] := by
    obtain rfl | rfl | rfl := hi <;> simp [Instr.kind]
  have hne {kinds : List OpKind} (hdis : ∀ k ∈ [.ldi, .mul, .add], k ∉ kinds) : i.kind ∉ kinds := hdis _ hk
  have hdest : i.destination = some a := by
    obtain rfl | rfl | rfl := hi <;> rfl
  refine ⟨fun r hr => exec_reg_other h (by simpa [hdest] using hr), exec_sp h (hne (by decide)),
    exec_out h (by simpa using hne (kinds := [.prn]) (by decide)),
    fun addr => by rw [exec_ram_of_kind h (hne (by decide))], exec_status h ?_⟩
  obtain rfl | rfl | rfl := hi <;> nofun

/-- Settles O40: PRN's kind is none of those that change registers, sp or memory. -/
theorem printFrame : Obligations.PrintFrame := by
  intro a s t h
  exact ⟨reg_eq_of_x_eq (exec_x h (by simp [Instr.kind])), exec_sp h (by simp [Instr.kind]),
    fun addr => by rw [exec_ram_of_kind h (by simp [Instr.kind])], exec_out_prn h, exec_status h nofun⟩

/-- Settles O41: POP loads Ra and moves sp; the memory, so the popped byte too, is left alone. -/
theorem popFrame : Obligations.PopFrame := by
  intro a s t h
  exact ⟨fun r hr => exec_reg_other h (by simpa [Instr.destination] using hr), exec_sp_load h (.inl rfl), exec_out h nofun,
    fun addr => by rw [exec_ram_of_kind h (by simp [Instr.kind])], exec_status h nofun⟩

/-- Settles O42: the one write of PUSH and CALL is at sp - 1, which is SpDec's value where it has one. -/
theorem pushAndCallStoreOneByte : Obligations.PushAndCallStoreOneByte := by
  intro i a s t hi h
  have hk : i.kind = .push ∨ i.kind = .call := by
    obtain rfl | rfl := hi <;> simp [Instr.kind]
  refine ⟨reg_eq_of_x_eq (exec_x h ?_), exec_out h ?_, fun top htop => ?_, fun c hc => ?_, exec_status h ?_⟩
  · obtain rfl | rfl := hi <;> simp [Instr.kind]
  · obtain rfl | rfl := hi <;> nofun
  · obtain ⟨-, hdec⟩ | ⟨-, hdec, haddr⟩ := spDec_cases s
    · cases hdec.symm.trans htop
    · cases hdec.symm.trans htop
      refine ⟨(exec_sp_store h hk).imp_right And.right, fun addr hne => ?_⟩
      obtain hram | ⟨-, -, v, hram⟩ := exec_ram h
      · rw [hram]
      · rw [hram, Memory.read_write_other _ _ (by omega)]
  · obtain ⟨hsp, -⟩ | ⟨-, hdec, -⟩ := spDec_cases s
    · refine ⟨(exec_sp_store h hk).resolve_right fun hmoved => hmoved.1 hsp, fun addr => ?_⟩
      rw [(exec_ram h).resolve_right fun hstored => hstored.2.1 hsp]
    · cases hdec.symm.trans hc
  · obtain rfl | rfl := hi <;> nofun

/-- Settles O43: HLT, RET and JMP are among the instructions that change no register, no output and no memory. -/
theorem haltReturnAndJumpFrame : Obligations.HaltReturnAndJumpFrame := by
  intro i a s t hi h
  have hk : i.kind ∈ [.hlt, .ret, .jmp] := by
    obtain rfl | rfl | rfl := hi <;> simp [Instr.kind]
  have hne {kinds : List OpKind} (hdis : ∀ k ∈ [.hlt, .ret, .jmp], k ∉ kinds) : i.kind ∉ kinds := hdis _ hk
  refine ⟨reg_eq_of_x_eq (exec_x h (hne (by decide))), exec_out h (by simpa using hne (kinds := [.prn]) (by decide)),
    fun addr => by rw [exec_ram_of_kind h (hne (by decide))], ?_, ?_, fun hhlt => exec_status h hhlt⟩
  · obtain rfl | rfl | rfl := hi
    · exact .inl (exec_sp h (by simp [Instr.kind]))
    · exact (exec_sp_load h (.inr rfl)).imp_right fun hsp => ⟨rfl, hsp⟩
    · exact .inl (exec_sp h (by simp [Instr.kind]))
  · rintro rfl
    cases (exec_hlt s).symm.trans h
    exact ⟨rfl, rfl⟩

end Sys2Proof.Proofs

/-! PROOFS. What every step keeps and depends on: the invariant, the parts each instruction may change, the addresses a step
reads and the one it stores at, and the trace, which nothing reads back. -/

namespace Sys2Proof.Machine

variable {s t : State} {i : Instr} {c : FaultCause}

/-! ## A step, as a fault or a completed instruction -/

theorem running_of_step (h : step s = .next t) : s.status = .running :=
  (Proofs.stepExistsExactlyWhenRunning.1 s).mp ⟨t, h⟩

/-- Everything a step can do: take the fault of the fetch, or run the fetched instruction. -/
theorem step_next_cases (h : step s = .next t) :
    (∃ c, fetchDecode s = .error c ∧ t = takeFault c s) ∨ ∃ i, fetchDecode s = .ok i ∧ exec i s = .next t := by
  obtain ⟨i, hfetch, hexec⟩ | ⟨c, hfetch, htake⟩ := step_running_cases (running_of_step h)
  · exact .inr ⟨i, hfetch, hexec.symm.trans h⟩
  · cases htake.symm.trans h
    exact .inl ⟨c, hfetch, rfl⟩

theorem step_of_fetchDecode_error (hrun : s.status = .running) (hfetch : fetchDecode s = .error c) :
    step s = .next (takeFault c s) := by
  simp [step, hrun, hfetch]

/-! ## The invariant -/

/-- A cause reported is that of a check that fails. -/
theorem exists_failing_of_firstFailing {checks : List Check} (h : firstFailing checks = some c) :
    ∃ check ∈ checks, check.1 = true ∧ check.2 = c := by
  obtain ⟨check, hmem, hc⟩ := List.exists_of_findSome?_eq_some h
  obtain ⟨hfails, hc⟩ := Option.ite_none_right_eq_some.mp hc
  exact ⟨check, hmem, hfails, Option.some.inj hc⟩

/-- A failing check of an operation reports an info that R181 lists, once the operands lie in the memory. -/
theorem infoLegal_of_executionChecks {k : OpKind} (hpc : s.pc.toNat + k.arity ≤ 255)
    (h : firstFailing (executionChecks s k) = some c) : c.infoLegal = true := by
  have hall : ∀ check ∈ executionChecks s k, check.1 = true → check.2.infoLegal = true := by
    cases k <;> simp [executionChecks, checkReg, checkSpDec, checkAdvance, FaultCause.infoLegal, OpKind.arity] at hpc ⊢ <;>
      omega
  obtain ⟨check, hmem, hfails, rfl⟩ := exists_failing_of_firstFailing h
  exact hall check hmem hfails

theorem infoLegal_of_firstFault (h : firstFault s = some c) : c.infoLegal = true := by
  obtain ⟨hlook, hfirst⟩ | ⟨k, -, ⟨-, hfirst⟩ | ⟨hpc, hfirst⟩⟩ := firstFault_cases s
  · cases hfirst.symm.trans h
    exact Option.isNone_iff_eq_none.mpr hlook
  · cases hfirst.symm.trans h
    rfl
  · exact infoLegal_of_executionChecks hpc (hfirst.symm.trans h)

/-- The status a step leaves is one of R181's, since R190's list reports no other cause. -/
theorem step_status_legal (h : step s = .next t) : t.status.legal = true := by
  cases hst : t.status with
  | running | halted => rfl
  | faulted c => exact infoLegal_of_firstFault ((status_eq_faulted_iff (running_of_step h) h).mp hst)

/-- Only PUSH and CALL change the memory, by one byte, below the stack pointer (R44). -/
theorem step_ram (h : step s = .next t) :
    t.ram = s.ram ∨ s.byteAtPc 0 ∈ [0x45, 0x50] ∧ s.sp ≠ 0 ∧ ∃ v, t.ram = s.ram.write (s.sp.toNat - 1) v := by
  obtain ⟨c, -, rfl⟩ | ⟨i, hfetch, hexec⟩ := step_next_cases h
  · exact .inl rfl
  · rw [byteAtPc_of_fetchDecode hfetch]
    refine (exec_ram hexec).imp_right fun ⟨hk, hstore⟩ => ⟨?_, hstore⟩
    obtain hk | hk := hk <;> simp [hk, opcodeOf]

theorem step_ram_wf (h : step s = .next t) (hwf : s.ram.wf = true) : t.ram.wf = true := by
  obtain hram | ⟨-, -, v, hram⟩ := step_ram h
  · rw [hram, hwf]
  · rw [hram]
    exact Memory.write_wf v hwf (by have := s.sp.isLt; omega)

/-! ## The instructions that change each part -/

/-- A part of the state that every instruction outside `kinds` leaves alone is changed only at one of their opcode bytes. -/
theorem byteAtPc_mem_of_changed {α : Type} {part : State → α} {kinds : List OpKind}
    (hfault : ∀ c, part (takeFault c s) = part s)
    (hexec : ∀ i, i.kind ∉ kinds → exec i s = .next t → part t = part s)
    (h : step s = .next t) (hchanged : part t ≠ part s) : s.byteAtPc 0 ∈ kinds.map opcodeOf := by
  obtain ⟨c, -, rfl⟩ | ⟨i, hfetch, hi⟩ := step_next_cases h
  · exact absurd (hfault c) hchanged
  · rw [byteAtPc_of_fetchDecode hfetch]
    by_contra hnot
    exact hchanged (hexec i (fun hk => hnot (List.mem_map_of_mem hk)) hi)

/-- HALTED is the status HLT leaves, and no other instruction (R28, R100). -/
theorem step_halted_iff (h : step s = .next t) : t.status = .halted ↔ s.byteAtPc 0 = 0x01 := by
  have hrun := running_of_step h
  constructor
  · intro hhalt
    obtain ⟨u, hu, hstatus⟩ := step_status_firstFault hrun
    cases hu.symm.trans h
    by_contra hop
    rw [if_neg hop, hhalt] at hstatus
    cases hfirst : firstFault s with
    | none => simp [hfirst, statusAfter] at hstatus
    | some c => simp [hfirst, statusAfter] at hstatus
  · intro hop
    cases (Proofs.hltStepFollowsItsRule s hrun hop).1.symm.trans h
    rfl

/-! ## The bytes of a fetched instruction -/

/-- The bytes at the pc are the words of the fetched instruction (R45, R84). -/
theorem byteAtPc_of_encode {j : Nat} (hfetch : fetchDecode s = .ok i) (hj : j < (encode i).length) :
    s.byteAtPc j = (encode i)[j] := by
  obtain ⟨rest, hdecode⟩ := fetchDecode_eq_ok_iff.mp hfetch
  have hbytes := (encode_of_decode hdecode).2
  have hlen := congrArg List.length hbytes
  rw [length_bytesFrom, List.length_append] at hlen
  have hbyte := getElem?_bytesFrom s.ram (addr := s.pc.toNat) (j := j) (by omega)
  rw [hbytes, List.getElem?_append_left hj, List.getElem?_eq_getElem hj] at hbyte
  exact (Option.some.inj hbyte).symm

/-! ## The addresses a step reads -/

theorem operandsWanted_le_two (op : Byte) : operandsWanted op ≤ 2 := by
  cases h : lookupOpcode op with
  | none => simp [operandsWanted, h]
  | some k => exact operandsWanted_of_lookupOpcode h ▸ k.arity_le_two

theorem fetchOperands_congr {s' : State} {n addr : Nat}
    (hread : ∀ j < n, addr + j ≤ 255 → s'.ram.read (addr + j) = s.ram.read (addr + j)) :
    fetchOperands s' n addr = fetchOperands s n addr := by
  induction n generalizing addr with
  | zero => rfl
  | succ n ih =>
    have htail := ih (addr := addr + 1) fun j hj haddr => by
      rw [Nat.add_right_comm, Nat.add_assoc] at haddr ⊢
      exact hread (j + 1) (Nat.succ_lt_succ hj) haddr
    by_cases h : addr ≤ 255
    · simp [fetchOperands, memRead, h, htail, show s'.ram.read addr = s.ram.read addr from hread 0 n.succ_pos h]
    · simp [fetchOperands, memRead, h]

/-- The fetch reads the memory at pc, pc + 1 and pc + 2, as far as they lie in it, and nothing else (R81 to R84). -/
theorem fetchDecode_congr {s' : State} (hpc : s'.pc = s.pc)
    (hread : ∀ j ≤ 2, s.pc.toNat + j ≤ 255 → s'.ram.read (s.pc.toNat + j) = s.ram.read (s.pc.toNat + j)) :
    fetchDecode s' = fetchDecode s := by
  have hop : s'.ram.read s.pc.toNat = s.ram.read s.pc.toNat := hread 0 (by decide) (Nat.le_of_lt_succ s.pc.isLt)
  have hwant := operandsWanted_le_two (s.ram.read s.pc.toNat)
  have hoperands := fetchOperands_congr (s := s) (s' := s') (n := operandsWanted (s.ram.read s.pc.toNat))
    (addr := s.pc.toNat + 1) fun j hj haddr => by
      rw [Nat.add_assoc, Nat.add_comm 1] at haddr ⊢
      exact hread (j + 1) (by omega) haddr
  simp only [fetchDecode, hpc, hop, hoperands]

/-! ## Another memory -/

/-- AdvanceSequential does not look at the memory. -/
theorem advanceSequential_eq_except_ram {n : Nat} {u : State} (h : u = { s with ram := u.ram }) :
    advanceSequential n u = { advanceSequential n s with ram := (advanceSequential n u).ram } := by
  have hpc : u.pc = s.pc := h ▸ rfl
  obtain ⟨hfits, hadv⟩ | ⟨hpast, hadv⟩ := advanceSequential_cases n s
  · rw [hadv, advanceSequential_of_fits (hpc ▸ hfits), hpc, h]
    rfl
  · rw [hadv, advanceSequential_of_pastEnd (hpc ▸ hpast), hpc, h]
    rfl

/-- `SameStore before after before' after'`: two steps leave their memories alone, or store the same byte at the same
address (R44). -/
def SameStore (before after before' after' : Memory) : Prop :=
  (after = before ∧ after' = before') ∨ ∃ addr v, after = before.write addr v ∧ after' = before'.write addr v

theorem SameStore.read {before after before' after' : Memory} (h : SameStore before after before' after')
    (hwf : before.wf = true) (hwf' : before'.wf = true) (addr : Nat) :
    (after.read addr = before.read addr ∧ after'.read addr = before'.read addr) ∨
      after'.read addr = after.read addr := by
  obtain ⟨rfl, rfl⟩ | ⟨a, v, rfl, rfl⟩ := h
  · exact .inl ⟨rfl, rfl⟩
  · by_cases haddr : addr = a
    · subst haddr
      exact .inr (by rw [Memory.read_write_same _ _ hwf, Memory.read_write_same _ _ hwf'])
    · exact .inl ⟨Memory.read_write_other _ _ haddr, Memory.read_write_other _ _ haddr⟩

/-- With another memory that agrees at sp an instruction completes with the same effect and the same store. -/
theorem Completes.withRam {m : Memory} (h : Completes s i t) (hread : m.read s.sp.toNat = s.ram.read s.sp.toNat) :
    ∃ u, Completes { s with ram := m } i u ∧ u = { t with ram := u.ram } ∧ SameStore s.ram t.ram m u.ram := by
  cases h with
  | hlt => exact ⟨_, .hlt, rfl, .inl ⟨rfl, rfl⟩⟩
  | ldi d b => exact ⟨_, .ldi d b, advanceSequential_eq_except_ram rfl, .inl ⟨by simp, by simp⟩⟩
  | prn r => exact ⟨_, .prn r, advanceSequential_eq_except_ram rfl, .inl ⟨by simp, by simp⟩⟩
  | mul d r => exact ⟨_, .mul d r, advanceSequential_eq_except_ram rfl, .inl ⟨by simp, by simp⟩⟩
  | add d r => exact ⟨_, .add d r, advanceSequential_eq_except_ram rfl, .inl ⟨by simp, by simp⟩⟩
  | push r hsp =>
    exact ⟨_, .push r hsp, advanceSequential_eq_except_ram rfl,
      .inr ⟨_, _, advanceSequential_ram _ _, advanceSequential_ram _ _⟩⟩
  | pop d hsp =>
    exact ⟨_, .pop d hsp, advanceSequential_eq_except_ram (by simp [State.setReg, State.setSp, hread]),
      .inl ⟨by simp, by simp⟩⟩
  | call r hsp hret => exact ⟨_, .call r hsp hret, rfl, .inr ⟨_, _, rfl, rfl⟩⟩
  | ret hsp => exact ⟨_, .ret hsp, by simp [hread], .inl ⟨rfl, rfl⟩⟩
  | jmp r => exact ⟨_, .jmp r, rfl, .inl ⟨rfl, rfl⟩⟩

/-- A handler reads the memory at sp only: with another memory that agrees there it does the same, and stores the same. -/
theorem exec_withRam {m : Memory} (h : exec i s = .next t) (hread : m.read s.sp.toNat = s.ram.read s.sp.toNat) :
    ∃ u, exec i { s with ram := m } = .next u ∧ u = { t with ram := u.ram } ∧ SameStore s.ram t.ram m u.ram := by
  obtain ⟨c, hraises, rfl⟩ | hcompletes := exec_next_cases h
  · exact ⟨_, hraises _ rfl rfl, rfl, .inl ⟨rfl, rfl⟩⟩
  · obtain ⟨u, hu, hrest⟩ := hcompletes.withRam hread
    exact ⟨u, hu.exec_eq, hrest⟩

/-! ## Another trace -/

/-- AdvanceSequential does not look at the trace. -/
theorem advanceSequential_withOut (n : Nat) (s : State) (o : List Byte) :
    { advanceSequential n s with out := o } = advanceSequential n { s with out := o } := by
  obtain ⟨hfits, hadv⟩ | ⟨hpast, hadv⟩ := advanceSequential_cases n s
  · rw [hadv, advanceSequential_of_fits (s := { s with out := o }) hfits]
    rfl
  · rw [hadv, advanceSequential_of_pastEnd (s := { s with out := o }) hpast]
    rfl

/-- Every instruction but PRN completes alike with another trace. -/
theorem Completes.withOut (h : Completes s i t) (hk : i.kind ≠ .prn) (o : List Byte) :
    Completes { s with out := o } i { t with out := o } := by
  cases h with
  | hlt => exact .hlt
  | prn => exact absurd rfl hk
  | ldi | mul | add =>
    rw [advanceSequential_withOut]
    constructor
  | push r hsp =>
    rw [advanceSequential_withOut]
    exact .push (s := { s with out := o }) r hsp
  | pop d hsp =>
    rw [advanceSequential_withOut]
    exact .pop (s := { s with out := o }) d hsp
  | call r hsp hret => exact .call (s := { s with out := o }) r hsp hret
  | ret hsp => exact .ret (s := { s with out := o }) hsp
  | jmp r => exact .jmp r

/-- A handler appends one value of PRN's, or none, and does not look at the trace: before another one it does the same and
appends the same. -/
theorem exec_withOut (h : exec i s = .next t) :
    ∃ emitted, (emitted = [] ∨ ∃ r : Fin 8, i = .prn (.reg r) ∧ emitted = [s.reg r]) ∧ t.out = s.out ++ emitted ∧
      ∀ o, exec i { s with out := o } = .next { t with out := o ++ emitted } := by
  obtain ⟨c, hraises, rfl⟩ | hcompletes := exec_next_cases h
  · refine ⟨[], .inl rfl, (List.append_nil _).symm, fun o => ?_⟩
    rw [List.append_nil]
    exact hraises _ rfl rfl
  by_cases hk : i.kind = .prn
  · cases hcompletes with
    | prn r =>
      refine ⟨[s.reg r], .inr ⟨r, rfl, rfl⟩, by simp, fun o => ?_⟩
      rw [advanceSequential_withOut]
      rfl
    | hlt | ldi | mul | add | push | pop | call | ret | jmp => cases hk
  · refine ⟨[], .inl rfl, by rw [exec_out h hk, List.append_nil], fun o => ?_⟩
    rw [List.append_nil]
    exact (hcompletes.withOut hk o).exec_eq

end Sys2Proof.Machine

namespace Sys2Proof.Proofs

open Sys2Proof.Machine

/-- Settles O4: the one store of a step keeps the canonical form, and R190's list reports only infos of R181. -/
theorem stepKeepsTheInvariant : Obligations.StepKeepsTheInvariant :=
  fun _ _ ⟨hwf, _⟩ hstep => ⟨step_ram_wf hstep hwf, step_status_legal hstep⟩

/-- Settles O3: reset lists no cell and runs. -/
theorem invariantHoldsAtReset : Obligations.InvariantHoldsAtReset := ⟨reset_ram_wf, rfl⟩

/-- Settles O44: each part's instructions, by their opcode bytes; a fault of the fetch changes no part. -/
theorem onlyTheNamedInstructionsChangeEachPart : Obligations.OnlyTheNamedInstructionsChangeEachPart := by
  intro s t hstep
  refine ⟨?regs, ?sp, ?out, ?ram, step_halted_iff hstep⟩
  case regs =>
    exact byteAtPc_mem_of_changed (part := State.x) (kinds := [.ldi, .mul, .add, .pop]) (fun _ => rfl)
      (fun _ hk hexec => exec_x hexec hk) hstep
  case sp =>
    exact byteAtPc_mem_of_changed (part := State.sp) (kinds := [.push, .pop, .call, .ret]) (fun _ => rfl)
      (fun _ hk hexec => exec_sp hexec hk) hstep
  case out =>
    exact fun hne => List.mem_singleton.mp <| byteAtPc_mem_of_changed (part := State.out) (kinds := [.prn]) (fun _ => rfl)
      (fun _ hk hexec => exec_out hexec (mt List.mem_singleton.mpr hk)) hstep hne
  case ram =>
    exact byteAtPc_mem_of_changed (part := State.ram) (kinds := [.push, .call]) (fun _ => rfl)
      (fun _ hk hexec => exec_ram_of_kind hexec hk) hstep

/-- Settles O45: the one store of a step is below the stack pointer, and a write leaves every other address alone. -/
theorem stepStoresOnlyBelowTheStackPointer : Obligations.StepStoresOnlyBelowTheStackPointer := by
  intro s t addr hstep hchanged
  obtain hram | ⟨hop, hsp, v, hram⟩ := step_ram hstep
  · exact absurd (by rw [hram]) hchanged
  · refine ⟨hop, ?_⟩
    have haddr : addr = s.sp.toNat - 1 := by
      by_contra hne
      exact hchanged (by rw [hram, Memory.read_write_other _ _ hne])
    have hpos := Nat.pos_of_ne_zero (mt sp_eq_zero_iff.mpr hsp)
    omega

/-- Settles O46: the fetch reads at pc, pc + 1 and pc + 2, the handler at sp. -/
theorem stepReadsOnlyTheNamedCells : Obligations.StepReadsOnlyTheNamedCells := by
  intro s t m hread hstep
  have hrun : State.status { s with ram := m } = .running := running_of_step (s := s) hstep
  have hfetch : fetchDecode { s with ram := m } = fetchDecode s := fetchDecode_congr rfl fun j hj haddr =>
    hread _ haddr (by omega)
  have hsp := hread s.sp.toNat (Nat.le_of_lt_succ s.sp.isLt) (.inr (.inr (.inr rfl)))
  obtain ⟨c, herr, rfl⟩ | ⟨i, hok, hexec⟩ := step_next_cases hstep
  · exact ⟨_, step_of_fetchDecode_error hrun (hfetch.trans herr), rfl, fun _ _ _ => .inl ⟨rfl, rfl⟩⟩
  · obtain ⟨u, hu, heq, hstore⟩ := exec_withRam hexec hsp
    exact ⟨u, (step_of_fetchDecode hrun (hfetch.trans hok)).trans hu, heq, hstore.read⟩

/-- Settles O47: neither the fetch nor a handler looks at the trace, and PRN's operand byte is its register's index. -/
theorem outputOnlyGrowsAndIsNeverReadBack : Obligations.OutputOnlyGrowsAndIsNeverReadBack := by
  intro s t o hstep
  have hrun : State.status { s with out := o } = .running := running_of_step (s := s) hstep
  have hfetch : fetchDecode { s with out := o } = fetchDecode s := fetchDecode_congr rfl fun _ _ _ => rfl
  obtain ⟨c, herr, rfl⟩ | ⟨i, hok, hexec⟩ := step_next_cases hstep
  · refine ⟨[], .inl rfl, (List.append_nil _).symm, ?_⟩
    rw [List.append_nil]
    exact step_of_fetchDecode_error hrun (hfetch.trans herr)
  · obtain ⟨emitted, hemitted, hout, hother⟩ := exec_withOut hexec
    refine ⟨emitted, hemitted.imp_right ?_, hout, (step_of_fetchDecode hrun (hfetch.trans hok)).trans (hother o)⟩
    rintro ⟨r, rfl, rfl⟩
    refine ⟨byteAtPc_of_fetchDecode hok, r, ?_, rfl⟩
    rw [byteAtPc_of_encode (j := 1) hok (Nat.lt_succ_self 1)]
    exact RegOperand.toNat_toByte_reg r

end Sys2Proof.Proofs

/-! PROOFS. BOUNDS_NEXT_PC (spec/60_exceptions.md R186): the last check of the sequential instructions, and CALL's check of
its return address. -/

namespace Sys2Proof.Machine

/-- The operation computes its successor address, and the checks before that pass (R186). -/
def ReachesNextPc (s : State) : OpKind → Prop
  | .hlt | .ret | .jmp => False
  | .ldi | .prn => (s.byteAtPc 1).toNat ≤ 7
  | .mul | .add => (s.byteAtPc 1).toNat ≤ 7 ∧ (s.byteAtPc 2).toNat ≤ 7
  | .push => s.sp.toNat ≠ 0 ∧ (s.byteAtPc 1).toNat ≤ 7
  | .pop => s.sp.toNat < 0xF4 ∧ (s.byteAtPc 1).toNat ≤ 7
  | .call => s.sp.toNat ≠ 0

variable {s : State} {k : OpKind} {addr : Nat}

/-- The check is of the address after the instruction's last byte, for CALL too. -/
theorem executionChecks_boundsNextPc_iff :
    firstFailing (executionChecks s k) = some (.boundsNextPc addr) ↔
      ReachesNextPc s k ∧ 255 < s.pc.toNat + k.arity + 1 ∧ s.pc.toNat + k.arity + 1 = addr := by
  cases k <;>
    simp [executionChecks, checkReg, checkSpDec, checkAdvance, ReachesNextPc, OpKind.arity, ite_eq_iff, and_assoc]
  case call =>
    intros
    omega

/-- With the operands in the memory only an instruction that ends at address 255 fails it. -/
theorem firstFault_eq_boundsNextPc_iff :
    firstFault s = some (.boundsNextPc addr) ↔
      addr = 256 ∧ ∃ k, s.byteAtPc 0 = opcodeOf k ∧ s.pc.toNat + k.arity = 255 ∧ ReachesNextPc s k := by
  rw [firstFault_eq_some_iff_of_ofExecution rfl]
  simp only [executionChecks_boundsNextPc_iff]
  constructor
  · rintro ⟨k, hop, hpc, hreach, hpast, rfl⟩
    exact ⟨by omega, k, hop, by omega, hreach⟩
  · rintro ⟨rfl, k, hop, hpc, hreach⟩
    exact ⟨k, hop, hpc.le, hreach, by omega, by omega⟩

/-- The instructions that reach the check at the end of the memory, by opcode byte (R186). -/
theorem exists_reachesNextPc_iff :
    (∃ k, s.byteAtPc 0 = opcodeOf k ∧ s.pc.toNat + k.arity = 255 ∧ ReachesNextPc s k) ↔
      (s.byteAtPc 0 = 0x82 ∧ s.pc.toNat = 253 ∧ (s.byteAtPc 1).toNat < 8) ∨
      (s.byteAtPc 0 ∈ [0xA2, 0xA0] ∧ s.pc.toNat = 253 ∧ (s.byteAtPc 1).toNat < 8 ∧ (s.byteAtPc 2).toNat < 8) ∨
      (s.byteAtPc 0 = 0x47 ∧ s.pc.toNat = 254 ∧ (s.byteAtPc 1).toNat < 8) ∨
      (s.byteAtPc 0 = 0x45 ∧ s.pc.toNat = 254 ∧ 1 ≤ s.sp.toNat ∧ (s.byteAtPc 1).toNat < 8) ∨
      (s.byteAtPc 0 = 0x46 ∧ s.pc.toNat = 254 ∧ s.sp.toNat < 0xF4 ∧ (s.byteAtPc 1).toNat < 8) ∨
      (s.byteAtPc 0 = 0x50 ∧ s.pc.toNat = 254 ∧ 1 ≤ s.sp.toNat) := by
  constructor
  · rintro ⟨k, hop, hpc, hreach⟩
    have hpc' : s.pc.toNat = 255 - k.arity := by omega
    cases k with
    | hlt | ret | jmp => cases hreach
    | ldi => exact .inl ⟨hop, hpc', Nat.lt_succ_of_le hreach⟩
    | mul | add =>
      obtain ⟨ha, hb⟩ := hreach
      exact .inr (.inl ⟨by simp [hop, opcodeOf], hpc', Nat.lt_succ_of_le ha, Nat.lt_succ_of_le hb⟩)
    | prn => exact .inr (.inr (.inl ⟨hop, hpc', Nat.lt_succ_of_le hreach⟩))
    | push =>
      obtain ⟨hsp, ha⟩ := hreach
      exact .inr (.inr (.inr (.inl ⟨hop, hpc', Nat.pos_of_ne_zero hsp, Nat.lt_succ_of_le ha⟩)))
    | pop =>
      obtain ⟨hsp, ha⟩ := hreach
      exact .inr (.inr (.inr (.inr (.inl ⟨hop, hpc', hsp, Nat.lt_succ_of_le ha⟩))))
    | call => exact .inr (.inr (.inr (.inr (.inr ⟨hop, hpc', Nat.pos_of_ne_zero hreach⟩))))
  · rintro (⟨hop, hpc, ha⟩ | ⟨hop, hpc, ha, hb⟩ | ⟨hop, hpc, ha⟩ | ⟨hop, hpc, hsp, ha⟩ | ⟨hop, hpc, hsp, ha⟩ |
      ⟨hop, hpc, hsp⟩)
    · exact ⟨.ldi, hop, by rw [hpc]; rfl, Nat.le_of_lt_succ ha⟩
    · obtain hop | hop : s.byteAtPc 0 = 0xA2 ∨ s.byteAtPc 0 = 0xA0 := by simpa using hop
      · exact ⟨.mul, hop, by rw [hpc]; rfl, Nat.le_of_lt_succ ha, Nat.le_of_lt_succ hb⟩
      · exact ⟨.add, hop, by rw [hpc]; rfl, Nat.le_of_lt_succ ha, Nat.le_of_lt_succ hb⟩
    · exact ⟨.prn, hop, by rw [hpc]; rfl, Nat.le_of_lt_succ ha⟩
    · exact ⟨.push, hop, by rw [hpc]; rfl, Nat.ne_of_gt hsp, Nat.le_of_lt_succ ha⟩
    · exact ⟨.pop, hop, by rw [hpc]; rfl, hsp, Nat.le_of_lt_succ ha⟩
    · exact ⟨.call, hop, by rw [hpc]; rfl, Nat.ne_of_gt hsp⟩

end Sys2Proof.Machine

namespace Sys2Proof.Proofs

open Sys2Proof.Machine

/-- Settles O34: the check of the successor address, reached only at the end of the memory; what it leaves unchanged is a
fault's frame. -/
theorem boundsNextPcRaisedExactlyPastTheEnd : Obligations.BoundsNextPcRaisedExactlyPastTheEnd := by
  intro s t addr hrun hstep
  refine ⟨?_, fun hfault => ?_⟩
  · rw [status_eq_faulted_iff hrun hstep, firstFault_eq_boundsNextPc_iff, exists_reachesNextPc_iff]
  · obtain ⟨hpc, hframe, -⟩ := faultsChangeOnlyTheStatus s t _ hrun hstep hfault
    refine ⟨hpc, fun hcall => hframe fun _ _ => ?_⟩
    rw [hcall]
    rfl

end Sys2Proof.Proofs

/-! PROOFS. Pairs of steps (spec/43_stack.md, spec/44_control.md, spec/20_memory.md R50): what PUSH and CALL leave in memory is
what POP, RET and the next fetch of that address read. -/

namespace Sys2Proof.Machine

variable {s t : State}

/-- A PUSH after which the machine still runs has passed all its checks (R142). -/
theorem step_push_running {r : Fin 8} (hrun : s.status = .running) (hop : s.byteAtPc 0 = 0x45)
    (hr : (s.byteAtPc 1).toNat = r.val) (hstep : step s = .next t) (ht : t.status = .running) :
    s.sp.toNat ≠ 0 ∧
      t = { s with sp := s.sp - 1, ram := s.ram.write (s.sp.toNat - 1) s.x[r.val], pc := s.pc + 2 } := by
  have hrule := (Proofs.pushStepFollowsItsRule s hrun hop).symm.trans hstep
  simp only [hr, r.isLt, dite_true] at hrule
  split_ifs at hrule with hpc hsp hend <;> cases hrule
  · cases ht
  · cases ht
  · cases ht
  · exact ⟨hsp, rfl⟩

/-- A CALL after which the machine still runs has passed all its checks (R160). -/
theorem step_call_running (hrun : s.status = .running) (hop : s.byteAtPc 0 = 0x50)
    (hstep : step s = .next t) (ht : t.status = .running) :
    s.sp.toNat ≠ 0 ∧ t.sp = s.sp - 1 ∧ t.ram = s.ram.write (s.sp.toNat - 1) (s.pc + 2) := by
  have hrule := (Proofs.callStepFollowsItsRule s hrun hop).symm.trans hstep
  dsimp only at hrule
  split_ifs at hrule with hpc hsp hend ha <;> cases hrule
  · cases ht
  · cases ht
  · cases ht
  · exact ⟨hsp, rfl, rfl⟩
  · cases ht

/-- The byte stored below the stack pointer is the byte at the new one (R50). -/
theorem read_stored_at_sp {v : Byte} (hwf : s.ram.wf = true) (hsp : s.sp.toNat ≠ 0) :
    (s.ram.write (s.sp.toNat - 1) v).read (s.sp - 1).toNat = v := by
  have haddr : (s.sp - 1).toNat = s.sp.toNat - 1 := by bv_omega
  rw [haddr]
  exact Memory.read_write_same _ v hwf

end Sys2Proof.Machine

namespace Sys2Proof.Proofs

open Sys2Proof.Machine

/-- Settles O48: the POP reads the byte the PUSH stored, at the stack pointer the PUSH left. -/
theorem pushThenPopCopiesTheRegister : Obligations.PushThenPopCopiesTheRegister := by
  intro s t r1 r2 hwf hsp hrun hstep ht hpush hr1 hpop hr2 hpc
  obtain ⟨hsp0, rfl⟩ := step_push_running hrun hpush hr1 hstep ht
  have hnonempty : ¬ 0xF4 ≤ (s.sp - 1).toNat := by bv_omega
  rw [popStepFollowsItsRule _ ht hpop]
  simp only [hr2, r2.isLt, dite_true, if_neg hnonempty, read_stored_at_sp hwf hsp0]
  rw [if_neg (by dsimp only at hpc; omega), if_neg (by dsimp only at hpc; omega), BitVec.sub_add_cancel, BitVec.add_assoc]
  rfl

/-- Settles O49: the byte RET reads is the return address the CALL stored. -/
theorem returnGoesToTheInstructionAfterTheCall : Obligations.ReturnGoesToTheInstructionAfterTheCall := by
  intro s t u hwf hrun hcall hstep ht hurun hret husp hbyte
  obtain ⟨hsp0, htsp, htram⟩ := step_call_running hrun hcall hstep ht
  have hbound : u.sp.toNat ≠ 255 := by
    rw [husp, htsp]
    bv_omega
  rw [retStepFollowsItsRule u hurun hret, if_neg hbound, hbyte, htram, htsp, read_stored_at_sp hwf hsp0, husp, htsp,
    BitVec.sub_add_cancel]

/-- Settles O50: the fetch at the new stack pointer reads the byte the PUSH stored there. -/
theorem pushedByteIsFetchedAsCode : Obligations.PushedByteIsFetchedAsCode := by
  intro s t u r hwf hsp hexec hram hpc hurun
  have hsp0 : s.sp.toNat ≠ 0 := Nat.ne_of_gt hsp
  have hop : u.byteAtPc 0 = s.reg r := by
    cases (exec_push_reg r (mt sp_eq_zero_iff.mp hsp0)).symm.trans hexec
    rw [State.byteAtPc_zero, hram, hpc, advanceSequential_ram, advanceSequential_sp, read_stored_at_sp hwf hsp0]
  refine ⟨hop, fun hhlt => (hltStepFollowsItsRule u hurun (hop.trans hhlt)).1, fun hnone => ?_⟩
  rw [← hop] at hnone ⊢
  exact step_of_lookupOpcode_eq_none hurun hnone

end Sys2Proof.Proofs

/-! PROOFS. The shared operations: the memory's canonical form is one form per memory, its accesses keep 0..255, the stack
pointer does not wrap, and the ALU's two operations commute. -/

namespace Sys2Proof.Machine

/-! ## One form per memory -/

/-- The addresses a canonical list may hold are 0..255, so the others read 0. -/
theorem cellsRead_pastEnd {lo a : Nat} {cs : List Host.Cell} (h : cellsWf lo cs = true) (ha : 256 ≤ a) :
    cellsRead cs a = 0#8 := by
  induction cs generalizing lo with
  | nil => rfl
  | cons c rest ih =>
    obtain ⟨-, hc, -, hrest⟩ := cellsWf_cons.mp h
    simpa [cellsRead, show c.1 ≠ a by omega] using ih hrest

/-- In a canonical list the first cell's byte is the one read at its address, and addresses below it read 0. -/
theorem le_of_cellsRead_eq {lo a b : Nat} {v w : Byte} {cs ds : List Host.Cell}
    (hcs : cellsWf lo ((a, v) :: cs) = true) (hds : cellsWf lo ((b, w) :: ds) = true)
    (hread : cellsRead ((a, v) :: cs) a = cellsRead ((b, w) :: ds) a) : b ≤ a := by
  obtain ⟨-, -, hv, -⟩ := cellsWf_cons.mp hcs
  obtain ⟨-, hb, hw, hrest⟩ := cellsWf_cons.mp hds
  by_contra hlt
  have hbelow := cellsRead_below (cellsWf_cons.mpr ⟨Nat.le_refl b, hb, hw, hrest⟩) (Nat.lt_of_not_le hlt)
  rw [hbelow] at hread
  exact hv (by simpa [cellsRead] using hread)

/-- Canonical lists that read alike list the same cells: the first ones have the same address and byte, and so on. -/
theorem cells_eq_of_cellsRead_eq {lo : Nat} {cs ds : List Host.Cell} (hcs : cellsWf lo cs = true)
    (hds : cellsWf lo ds = true) (hread : ∀ a, cellsRead cs a = cellsRead ds a) : cs = ds := by
  induction cs generalizing lo ds with
  | nil =>
    cases ds with
    | nil => rfl
    | cons d ds =>
      obtain ⟨-, -, hw, -⟩ := cellsWf_cons.mp hds
      exact absurd (by simpa [cellsRead] using (hread d.1).symm) hw
  | cons c cs ih =>
    obtain ⟨a, v⟩ := c
    obtain ⟨-, -, hv, hcs'⟩ := cellsWf_cons.mp hcs
    cases ds with
    | nil => exact absurd (by simpa [cellsRead] using hread a) hv
    | cons d ds =>
      obtain ⟨b, w⟩ := d
      obtain ⟨-, -, -, hds'⟩ := cellsWf_cons.mp hds
      obtain rfl : a = b :=
        Nat.le_antisymm (le_of_cellsRead_eq hds hcs (hread b).symm) (le_of_cellsRead_eq hcs hds (hread a))
      obtain rfl : v = w := by simpa [cellsRead] using hread a
      rw [ih hcs' hds' fun x => ?_]
      rcases Nat.lt_or_ge a x with hx | hx
      · simpa [cellsRead, Nat.ne_of_lt hx] using hread x
      · rw [cellsRead_below hcs' (Nat.lt_succ_of_le hx), cellsRead_below hds' (Nat.lt_succ_of_le hx)]

theorem Memory.ext_of_wf {m m' : Memory} (h : m.wf = true) (h' : m'.wf = true)
    (hread : ∀ addr ≤ 255, m.read addr = m'.read addr) : m = m' := by
  refine congrArg Memory.mk (cells_eq_of_cellsRead_eq h h' fun a => ?_)
  rcases Nat.lt_or_ge 255 a with ha | ha
  · rw [cellsRead_pastEnd h ha, cellsRead_pastEnd h' ha]
  · exact hread a ha

/-! ## The bounds of the memory -/

theorem memRead_of_le {s : State} {addr : Nat} (c : FaultCause) (h : addr ≤ 255) :
    memRead s addr c = .ok (s.ram.read addr) := if_pos h

theorem memRead_of_lt {s : State} {addr : Nat} (c : FaultCause) (h : 255 < addr) : memRead s addr c = .error c :=
  if_neg (Nat.not_le.mpr h)

/-- What a read gives after a write, at every address (R41, R50). -/
theorem memRead_write {s : State} {addr : Nat} {v : Byte} (c : FaultCause) (hwf : s.ram.wf = true) (b : Nat) :
    memRead { s with ram := s.ram.write addr v } b c =
      if 255 < b then .error c else if b = addr then .ok v else memRead s b c := by
  split_ifs with hb heq
  · exact memRead_of_lt c hb
  · rw [memRead_of_le c (Nat.le_of_not_lt hb), heq, Memory.read_write_same addr v hwf]
  · rw [memRead_of_le c (Nat.le_of_not_lt hb), memRead_of_le c (Nat.le_of_not_lt hb), Memory.read_write_other _ v heq]

/-! ## The ALU -/

/-- Both operations of the ALU commute (R120). -/
theorem aluResult_comm (op : AluOp) (p q : Byte) : aluResult op p q = aluResult op q p := by
  cases op with
  | add => simp [BitVec.add_comm]
  | mul => simp [BitVec.mul_comm]

end Sys2Proof.Machine

namespace Sys2Proof.Proofs

open Sys2Proof.Machine

/-- Settles O52: canonical lists hold one cell for each address that does not read 0, in one order. -/
theorem canonicalMemoriesThatReadAlikeAreEqual : Obligations.CanonicalMemoriesThatReadAlikeAreEqual :=
  fun _ _ => Memory.ext_of_wf

/-- Settles O51: the written memory is the witness inside 0..255; outside, both accesses raise. -/
theorem memoryReturnsTheByteLastWritten : Obligations.MemoryReturnsTheByteLastWritten := by
  intro s addr v c hwf
  refine ⟨fun h => ⟨_, if_pos h, Memory.write_wf v hwf (Nat.lt_succ_of_le h), memRead_write c hwf⟩, fun h => ?_⟩
  exact ⟨if_neg (Nat.not_le.mpr h), memRead_of_lt c h⟩

/-- Settles O53: each move's bound, and the byte it gives where the bound holds. -/
theorem stackPointerMovesWithoutWrap : Obligations.StackPointerMovesWithoutWrap := by
  intro s
  refine ⟨?dec, ?inc, stackEmpty_iff⟩
  case dec =>
    obtain ⟨hsp, hdec⟩ | ⟨hsp, hdec, hval⟩ := spDec_cases s
    · rw [hdec, if_pos (sp_eq_zero_iff.mp hsp)]
    · rw [hdec, if_neg (mt sp_eq_zero_iff.mpr hsp), ← hval, Nat.add_sub_cancel, BitVec.ofNat_toNat, BitVec.setWidth_eq]
  case inc =>
    obtain ⟨hsp, hinc⟩ | ⟨hsp, hinc, hval⟩ := spInc_cases s
    · rw [hinc, if_pos (sp_eq_255_iff.mp hsp)]
    · rw [hinc, if_neg (mt sp_eq_255_iff.mpr hsp), ← hval, BitVec.ofNat_toNat, BitVec.setWidth_eq]

/-- Settles O55: the written register holds the result, which commutes, and no other register is written. -/
theorem addAndMulCommuteInTheirValues : Obligations.AddAndMulCommuteInTheirValues := by
  intro op d r s
  refine ⟨?_, fun i hi => ?_⟩
  · rw [reg_aluApply, reg_aluApply, if_pos rfl, if_pos rfl, aluResult_comm]
  · rw [reg_aluApply, if_neg hi.symm]

/-- Settles O56: RegIdx answers for the whole byte, on both sides of the bound. -/
theorem registerOperandIsTheWholeByte : Obligations.RegisterOperandIsTheWholeByte :=
  fun v => ⟨fun h => by rw [RegOperand.ofByte_of_lt (Nat.lt_succ_of_le h), regIdx_reg],
    fun h => by rw [RegOperand.ofByte_of_not_lt (Nat.not_lt.mpr h), regIdx_illegal]⟩

/-- Settles O57: the codes, evaluated; none depends on an info. -/
theorem statusCodesAreTheSourcesAndDistinct : Obligations.StatusCodesAreTheSourcesAndDistinct :=
  ⟨rfl, rfl, fun _ => rfl, rfl, fun _ => rfl, fun _ _ _ _ _ _ => by simp [FaultCause.code, loadErrorCode]⟩

end Sys2Proof.Proofs

/-! PROOFS. Where each instruction completes and where it faults, as equations of its handler, and what a terminal machine
answers (spec/40_cycle.md R80, R86, R89). -/

namespace Sys2Proof.Machine

variable {s : State}

theorem advanceSequential_two_of_le (h : s.pc.toNat ≤ 252) : advanceSequential 2 s = { s with pc := s.pc + 3 } :=
  advanceSequential_of_endsBeforeLastAddress (by omega)

theorem advanceSequential_one_of_le (h : s.pc.toNat ≤ 253) : advanceSequential 1 s = { s with pc := s.pc + 2 } :=
  advanceSequential_of_endsBeforeLastAddress (by omega)

theorem exec_push_illegal_eq (v : Byte) (s : State) :
    exec (.push (.illegal v)) s = .next (takeFault (if s.sp = 0 then .boundsStack (-1) else .illegalRegister v) s) := by
  split_ifs with hsp
  · exact exec_push_of_sp_eq_zero _ hsp
  · exact exec_push_illegal v hsp

theorem exec_pop_illegal_eq (v : Byte) (s : State) :
    exec (.pop (.illegal v)) s =
      .next (takeFault (if 0xF4 ≤ s.sp.toNat then .stackUnderflow s.sp else .illegalRegister v) s) := by
  split_ifs with hsp
  · exact exec_pop_of_stackEmpty _ (stackEmpty_iff.mpr hsp)
  · exact exec_pop_illegal v (Bool.eq_false_iff.mpr (mt stackEmpty_iff.mp hsp))

theorem exec_call_illegal_eq (v : Byte) (s : State) :
    exec (.call (.illegal v)) s = .next (takeFault (if s.sp = 0 then .boundsStack (-1)
      else if 254 ≤ s.pc.toNat then .boundsNextPc (s.pc.toNat + 2) else .illegalRegister v) s) := by
  split_ifs with hsp hret
  · exact exec_call_of_sp_eq_zero _ hsp
  · exact exec_call_of_return_pastEnd _ hsp (by omega)
  · exact exec_call_illegal v hsp (by omega)

end Sys2Proof.Machine

namespace Sys2Proof.Proofs

open Sys2Proof.Machine

/-- Settles O24: HLT's handler checks nothing. -/
theorem haltCompletesEverywhere : Obligations.HaltCompletesEverywhere := exec_hlt

/-- Settles O25: the handlers' effects, with an advance that fits. -/
theorem registerInstructionsComplete : Obligations.RegisterInstructionsComplete :=
  ⟨fun s d b h => (exec_ldi_reg d b s).trans (congrArg Host.Outcome.next (advanceSequential_two_of_le h)),
    fun s r h => (exec_prn_reg r s).trans (congrArg Host.Outcome.next (advanceSequential_one_of_le h)),
    fun s d r h => (exec_mul_reg d r s).trans (congrArg Host.Outcome.next (advanceSequential_two_of_le h)),
    fun s d r h => (exec_add_reg d r s).trans (congrArg Host.Outcome.next (advanceSequential_two_of_le h))⟩

/-- Settles O26: the stack bounds pass, and the advance fits. -/
theorem stackInstructionsComplete : Obligations.StackInstructionsComplete := by
  refine ⟨fun s r h hsp => ?_, fun s d h hsp => ?_⟩
  · have hsp0 : s.sp ≠ 0 := mt sp_eq_zero_iff.mp (Nat.ne_of_gt hsp)
    exact (exec_push_reg r hsp0).trans (congrArg Host.Outcome.next (advanceSequential_one_of_le h))
  · have hnonempty : stackEmpty s = false := decide_eq_false (Nat.not_le.mpr (Nat.lt_succ_of_le hsp))
    exact (exec_pop_reg d hnonempty).trans (congrArg Host.Outcome.next (advanceSequential_one_of_le h))

/-- Settles O27: CALL's and RET's bounds pass; JMP's handler has none. -/
theorem controlTransfersComplete : Obligations.ControlTransfersComplete :=
  ⟨fun _ r hpc hsp => exec_call_reg r (mt sp_eq_zero_iff.mp (Nat.ne_of_gt hsp)) (Nat.add_le_add_right hpc 2),
    fun _ hsp => exec_ret_of_sp_ne_255 (mt sp_eq_255_iff.mp (Nat.ne_of_lt (Nat.lt_succ_of_le hsp))),
    fun s r => exec_jmp_reg r s⟩

/-- Settles O29: the fault of each form, after the checks that come before its operand's. -/
theorem illegalRegisterFormsFaultInOrder : Obligations.IllegalRegisterFormsFaultInOrder :=
  fun s v w b d o =>
    ⟨exec_ldi_illegal v b s, exec_prn_illegal v s, exec_jmp_illegal v s, exec_alu_illegal_left .mul v o s,
      exec_alu_illegal_right .mul d w s, exec_alu_illegal_left .add v o s, exec_alu_illegal_right .add d w s,
      exec_push_illegal_eq v s, exec_pop_illegal_eq v s, exec_call_illegal_eq v s⟩

/-- Settles O11: the answer names the terminal status. -/
theorem terminalMachineAnswersItsStatusAsFault : Obligations.TerminalMachineAnswersItsStatusAsFault :=
  ⟨fun _ => step_halted, fun _ _ => step_faulted⟩

end Sys2Proof.Proofs
